-- ==== Sys2Proof/Word.lean ====
section
/-! DEFINITION. The word types of the controller: bytes, the 64-bit command word, 32-bit registers
(10_state.md R20, 30_encoding.md R80). -/

namespace Sys2Proof

/-- One byte: a framebuffer byte, a glyph column, a frame byte, an 8-bit operand. -/
abbrev Byte := BitVec 8

/-- A 64-bit command word (30_encoding.md R80). -/
abbrev Word := BitVec 64

/-- A 32-bit register, handle or transport error (10_state.md R26, R28, R35). -/
abbrev Word32 := BitVec 32

end Sys2Proof
end

