-- ==== Sys2Proof/Config.lean ====
section
/-! DEFINITION. What is fixed for the controller: the geometry, glyph and bus constants (00_scope.md R6
to R8), the constant contents the spec gives, and the FREE VALUES, which are opaque constants without a
body: nothing can be proved about what they are. -/

namespace Sys2Proof.Config

/-! ## Geometry, glyph and bus constants -/

/-- Width in pixels (R6). -/
abbrev W : Nat := 128
/-- Height in pixels (R6). -/
abbrev H : Nat := 64
/-- Pages of 8 rows (R6): `H/8`. -/
abbrev PAGES : Nat := 8
/-- Framebuffer size in bytes (R6): `W*PAGES`. -/
abbrev FB_SIZE : Nat := 1024

/-- Columns of a glyph (R7). -/
abbrev GLYPH_W : Nat := 5
/-- Columns a character advances in text (R7). -/
abbrev GLYPH_ADV : Nat := 6
/-- First character code with a glyph (R7). -/
abbrev GLYPH_FIRST : Nat := 32
/-- Last character code with a glyph (R7). -/
abbrev GLYPH_LAST : Nat := 126
/-- Number of glyphs (R7). -/
abbrev GLYPH_COUNT : Nat := 95
/-- The substitute character, a question mark (R7). -/
abbrev SUBSTITUTE : Byte := 0x3F

/-- The panel's 7-bit bus address (R8). -/
abbrev PANEL_ADDR : BitVec 7 := 0x3C
/-- Control byte of a command frame (R8). -/
abbrev CTRL_CMD : Byte := 0x00
/-- Control byte of a data frame (R8). -/
abbrev CTRL_DATA : Byte := 0x40

/-! ## Contents of the read-only memories -/

/-- One glyph: five columns, left to right (10_state.md R22). -/
abbrev Glyph := Vector Byte 5

/-- The one glyph the spec gives, entry 33, the letter A (10_state.md R22). -/
def glyphA : Glyph := #v[0x7E, 0x11, 0x11, 0x11, 0x7E]

/-- The 26 payload bytes of the initialisation sequence, in order (42_bus_protocol.md R177).
The command bytes are the spec's general knowledge, 93_implementation_defined.md G1 (log 11). -/
def initSeqTable : Vector Byte 26 := #v[
  0xAE, 0xD5, 0x80, 0xA8, 0x3F, 0xD3, 0x00, 0x40, 0x8D, 0x14, 0x20, 0x00, 0xA1,
  0xC8, 0xDA, 0x12, 0x81, 0xCF, 0xD9, 0xF1, 0xDB, 0x40, 0xA4, 0xA6, 0x2E, 0xAF]

/-! ## What the transport may answer -/

/-- A handle the transport hands back on success: never 0 (10_state.md R36, 60_exceptions.md R262). -/
abbrev Handle := { h : Word32 // h ≠ 0 }

/-- One draw of the transport (00_scope.md R19): success, or failure with a 32-bit error. The handle of
a success is what `BusCreate` and `DevAdd` hand back; the other three requests carry none and the model
reads none for them. -/
inductive Reply where
  | ok (h : Handle)
  | fail (e : Word32)
deriving DecidableEq, Repr, Inhabited

/-! ## Free values: opaque, without a body -/

/-- Free value (log 3): the transport's answer where the list of answers in State is empty. -/
opaque freeReply : Nat → Reply

/-- Free value (log 4): `AllocOK()` where the list of draws in State is empty (42_bus_protocol.md R172). -/
opaque freeAlloc : Nat → Bool

/-- Free value (log 6): framebuffer byte `i` after block reset number `n` (93_implementation_defined.md U1). -/
opaque freeFbByte : Nat → Nat → Byte

/-- Free value (log 10): column `k` of glyph `g`, for every entry but 33 (93_implementation_defined.md U8). -/
opaque freeGlyphByte : Nat → Nat → Byte

/-- Free value (log 9): `TEXT_MAX - 1`, so that `TEXT_MAX` is 1..65535 (00_scope.md R9). -/
opaque freeTextMaxPred : Fin 65535

/-- Free value (log 9): `BUS_CLK_HZ` (93_implementation_defined.md U7). -/
opaque freeBusClkHz : Nat

/-- Free value (log 9): a name for the unit of `T_BUS` (93_implementation_defined.md U6). -/
opaque freeTimeUnit : Nat

/-- The glyph ROM of this controller: entry 33 as the spec gives it, the rest free (10_state.md R22). -/
def glyphRom : Vector Glyph 95 :=
  ⟨⟨(List.range 95).map fun g =>
      if g = 33 then glyphA
      else #v[freeGlyphByte g 0, freeGlyphByte g 1, freeGlyphByte g 2, freeGlyphByte g 3, freeGlyphByte g 4]⟩,
    by simp⟩

end Sys2Proof.Config
end

