-- ==== Sys2Proof/Syntax.lean ====
section
/-! DEFINITION. The ten commands of VFC-1, one constructor per row of spec/opcode_table.json
(30_encoding.md R81 to R84, R90, R91). -/

namespace Sys2Proof

/-- A host command with its operands, in the order of the source signatures (30_encoding.md R83, R90).
Every value of every field is encodable (R82); the payload of `drawText` is bounded by `Instr.wf`. -/
inductive Instr where
  /-- INIT_OWNING scl, sda (43_session.md R211). -/
  | initOwning (scl sda : Byte)
  /-- INIT_BORROWING handle; handle 0 stands for an absent handle (43_session.md R213). -/
  | initBorrowing (handle : Word32)
  /-- DEINIT (43_session.md R214). -/
  | deinit
  /-- SET_PIXEL x, y, on (41_framebuffer.md R122). -/
  | setPixel (x y : Byte) (on : Bool)
  /-- GET_PIXEL x, y (41_framebuffer.md R124). -/
  | getPixel (x y : Byte)
  /-- DRAW_CHAR c, x_col, y_page: the character first (41_framebuffer.md R127, 30_encoding.md R90). -/
  | drawChar (c x pg : Byte)
  /-- DRAW_TEXT x, y_page, string: `sp` says whether a string is present; `LEN` is the payload's length
  (41_framebuffer.md R128). -/
  | drawText (x pg : Byte) (sp : Bool) (payload : List Byte)
  /-- CLEAR_AREA x, y_page, width, height (41_framebuffer.md R132). -/
  | clearArea (x pg wd ht : Byte)
  /-- CLEAR_DISPLAY (41_framebuffer.md R133). -/
  | clearDisplay
  /-- UPDATE_SCREEN (42_bus_protocol.md R180). -/
  | updateScreen
deriving DecidableEq, Repr

/-! ## Assembler (30_encoding.md R90, R91) -/

/-- The mnemonic of the assembler (R84, R90). -/
def Instr.mnemonic : Instr → String
  | .initOwning _ _ => "INIT_OWNING"
  | .initBorrowing _ => "INIT_BORROWING"
  | .deinit => "DEINIT"
  | .setPixel _ _ _ => "SET_PIXEL"
  | .getPixel _ _ => "GET_PIXEL"
  | .drawChar _ _ _ => "DRAW_CHAR"
  | .drawText _ _ _ _ => "DRAW_TEXT"
  | .clearArea _ _ _ _ => "CLEAR_AREA"
  | .clearDisplay => "CLEAR_DISPLAY"
  | .updateScreen => "UPDATE_SCREEN"

/-- Pseudo-instruction PIXEL_ON x, y (R91). -/
def Instr.pixelOn (x y : Byte) : Instr := .setPixel x y true

/-- Pseudo-instruction PIXEL_OFF x, y (R91). -/
def Instr.pixelOff (x y : Byte) : Instr := .setPixel x y false

/-- Pseudo-instruction CLEAR_ALL (R91). -/
def Instr.clearAll : Instr := .clearDisplay

/-- The assembler form DRAW_TEXT x, y_page, "s" (R90): SP = 1, LEN the byte count, the bytes as payload. -/
def Instr.drawString (x pg : Byte) (s : List Byte) : Instr := .drawText x pg true s

/-- The assembler form DRAW_TEXT x, y_page, NULL (R90): SP = 0, LEN = 0. -/
def Instr.drawNull (x pg : Byte) : Instr := .drawText x pg false []

end Sys2Proof
end

