-- ==== Sys2Proof/WellFormed.lean ====
section
/-! DEFINITION. When a command is well formed: its operands fit the fields of its word (30_encoding.md R82). -/

namespace Sys2Proof

/-- An instruction is well formed when every operand fits its field. The 8-bit, 1-bit and 32-bit fields
fit by their types; the one check left is that `LEN`, a 16-bit field, can say the payload's length
(R82, R88). -/
def Instr.wf : Instr → Bool
  | .drawText _ _ _ payload => payload.length < 65536
  | .initOwning _ _ | .initBorrowing _ | .deinit | .setPixel _ _ _ | .getPixel _ _ | .drawChar _ _ _
  | .clearArea _ _ _ _ | .clearDisplay | .updateScreen => true

end Sys2Proof
end

