-- ==== Sys2Proof/Decode.lean ====
section
/-! DEFINITION. The decoder, total on any bytes and rejecting by name, and the encoder
(30_encoding.md R80 to R90, 20_memory.md R62). -/

namespace Sys2Proof

/-! ## The six fields of a command word (30_encoding.md R80) -/

/-- `OPCODE`, bits 63:56. -/
def opcodeOf (w : Word) : Byte := w.extractLsb' 56 8
/-- Field `A`, bits 55:48. -/
def fieldA (w : Word) : Byte := w.extractLsb' 48 8
/-- Field `B`, bits 47:40. -/
def fieldB (w : Word) : Byte := w.extractLsb' 40 8
/-- Field `C`, bits 39:32. -/
def fieldC (w : Word) : Byte := w.extractLsb' 32 8
/-- Field `D`, bits 31:24. -/
def fieldD (w : Word) : Byte := w.extractLsb' 24 8
/-- `ON` and `SP`, bit 32 (R82). -/
def bit32 (w : Word) : Bool := w.getLsbD 32
/-- `LEN`, bits 15:0 (R82). -/
def fieldLen (w : Word) : BitVec 16 := w.extractLsb' 0 16
/-- `HANDLE`, bits 31:0: `D` and `E` together (R80). -/
def fieldHandle (w : Word) : Word32 := w.extractLsb' 0 32

/-! ## Formats and masks (R81, R85) -/

/-- The eight formats (R81). -/
inductive Format where
  | N | P | Q | G | R | T | O | H
deriving DecidableEq, Repr

/-- The mask of a format: the opcode and every reserved bit (R85). -/
def Format.mask : Format → Word
  | .N => 0xFFFFFFFFFFFFFFFF
  | .P => 0xFF0000FEFFFFFFFF
  | .Q => 0xFF0000FFFFFFFFFF
  | .G => 0xFF000000FFFFFFFF
  | .R => 0xFF00000000FFFFFF
  | .T => 0xFF0000FEFFFF0000
  | .O => 0xFF0000FFFFFFFFFF
  | .H => 0xFFFFFFFF00000000

/-- The opcode of DRAW_TEXT, the one command with a payload (R88). -/
def drawTextOpcode : Byte := 0x13

/-- The opcode map (R84), each row with its format (R81) and its operands (R82). No row: undefined. -/
def opcodeRow (w : Word) (payload : List Byte) : Option (Format × Instr) :=
  match opcodeOf w with
  | 0x01#8 => some (.O, .initOwning (fieldA w) (fieldB w))
  | 0x02#8 => some (.H, .initBorrowing (fieldHandle w))
  | 0x03#8 => some (.N, .deinit)
  | 0x10#8 => some (.P, .setPixel (fieldA w) (fieldB w) (bit32 w))
  | 0x11#8 => some (.Q, .getPixel (fieldA w) (fieldB w))
  | 0x12#8 => some (.G, .drawChar (fieldC w) (fieldA w) (fieldB w))
  | 0x13#8 => some (.T, .drawText (fieldA w) (fieldB w) (bit32 w) payload)
  | 0x14#8 => some (.R, .clearArea (fieldA w) (fieldB w) (fieldC w) (fieldD w))
  | 0x15#8 => some (.N, .clearDisplay)
  | 0x20#8 => some (.N, .updateScreen)
  | _ => none

/-- Why bytes are no command. The first two are illegal words, which the controller completes with
`IllegalCommand` (R86, R87); the third is a broken duty of the host (60_exceptions.md R267). -/
inductive DecodeError where
  /-- The word's opcode is none of R84 (R87). -/
  | undefinedOpcode
  /-- A reserved bit of a defined opcode's word is set (R86). -/
  | reservedBits
  /-- The bytes end before the word, or before the payload that its `LEN` announces. -/
  | incomplete
deriving DecidableEq, Repr

/-- `MATCH`, the opcode at its place in the word: `OPCODE << 56` (R85). -/
def matchOf (op : Byte) : Word := op.setWidth 64 <<< 56

/-- Decode a command word with its payload (R85): the row of its opcode, then the mask. -/
def decodeWord (w : Word) (payload : List Byte) : Except DecodeError Instr :=
  match opcodeRow w payload with
  | none => .error .undefinedOpcode
  | some (f, i) => if w &&& f.mask = matchOf (opcodeOf w) then .ok i else .error .reservedBits

/-! ## The bytes of a command (R88, R89, 20_memory.md R62) -/

/-- How many payload bytes follow a word: from `OPCODE` and, for 0x13, from `LEN` alone, whether or not
the rest of the word is legal (R88). -/
def payloadLength (w : Word) : Nat :=
  if opcodeOf w = drawTextOpcode then (fieldLen w).toNat else 0

/-- The length of a command in bytes (R88). -/
def commandLength (w : Word) : Nat := 8 + payloadLength w

/-- A word from its eight bytes, the most significant first (20_memory.md R62). -/
def wordOfBytes (b7 b6 b5 b4 b3 b2 b1 b0 : Byte) : Word := b7 ++ b6 ++ b5 ++ b4 ++ b3 ++ b2 ++ b1 ++ b0

/-- The eight bytes of a word, the most significant first (20_memory.md R62). -/
def bytesOfWord (w : Word) : List Byte :=
  [w.extractLsb' 56 8, w.extractLsb' 48 8, w.extractLsb' 40 8, w.extractLsb' 32 8,
   w.extractLsb' 24 8, w.extractLsb' 16 8, w.extractLsb' 8 8, w.extractLsb' 0 8]

/-- Whether a list holds at least `n` bytes, without counting all of it. -/
def hasBytes : Nat → List Byte → Bool
  | 0, _ => true
  | _ + 1, [] => false
  | n + 1, _ :: bs => hasBytes n bs

/-- A command as it is taken from the port: its word, its payload, and the bytes that follow it. -/
structure Fetched where
  word : Word
  payload : List Byte
  rest : List Byte
deriving DecidableEq, Repr

/-- Take one command from the bytes on the port: its word, then exactly `LEN` payload bytes (R88, R89);
`none` where the bytes end before that. -/
def fetchCommand : List Byte → Option Fetched
  | b7 :: b6 :: b5 :: b4 :: b3 :: b2 :: b1 :: b0 :: bs =>
    let w := wordOfBytes b7 b6 b5 b4 b3 b2 b1 b0
    if hasBytes (payloadLength w) bs then
      some ⟨w, bs.take (payloadLength w), bs.drop (payloadLength w)⟩
    else none
  | _ => none

/-- The decoder over bytes: total, and rejecting by name. It answers the instruction and the bytes after it. -/
def decodeBytes (bs : List Byte) : Except DecodeError (Instr × List Byte) :=
  match fetchCommand bs with
  | none => .error .incomplete
  | some c =>
    match decodeWord c.word c.payload with
    | .ok i => .ok (i, c.rest)
    | .error e => .error e

/-! ## The encoder (R80, R81, R90) -/

/-- A word from its six fields (R80). -/
def packWord (op a b c d : Byte) (e : BitVec 24) : Word := op ++ a ++ b ++ c ++ d ++ e

/-- A 1-bit operand in the lowest bit of field `C` (R81, formats P and T). -/
def flagByte (on : Bool) : Byte := if on then 1 else 0

/-- The command word of an instruction (R81, R84, R90). -/
def encodeWord : Instr → Word
  | .initOwning scl sda => packWord 0x01 scl sda 0 0 0
  | .initBorrowing h => packWord 0x02 0 0 0 (h.extractLsb' 24 8) (h.extractLsb' 0 24)
  | .deinit => packWord 0x03 0 0 0 0 0
  | .setPixel x y on => packWord 0x10 x y (flagByte on) 0 0
  | .getPixel x y => packWord 0x11 x y 0 0 0
  | .drawChar c x pg => packWord 0x12 x pg c 0 0
  | .drawText x pg sp p => packWord 0x13 x pg (flagByte sp) 0 (BitVec.ofNat 24 p.length)
  | .clearArea x pg wd ht => packWord 0x14 x pg wd ht 0
  | .clearDisplay => packWord 0x15 0 0 0 0 0
  | .updateScreen => packWord 0x20 0 0 0 0 0

/-- The payload of an instruction (R88): DRAW_TEXT alone has one. -/
def Instr.payload : Instr → List Byte
  | .drawText _ _ _ p => p
  | .initOwning _ _ | .initBorrowing _ | .deinit | .setPixel _ _ _ | .getPixel _ _ | .drawChar _ _ _
  | .clearArea _ _ _ _ | .clearDisplay | .updateScreen => []

/-- The bytes of an instruction as they come on a byte port: the word, most significant byte first, then
the payload (20_memory.md R62, R88). -/
def encodeBytes (i : Instr) : List Byte := bytesOfWord (encodeWord i) ++ i.payload

/-! ## The opcode table's words -/

/-- The bytes of a table word of `nbits` bits: the 64-bit word, and as many zero payload bytes as its
`LEN` announces. -/
def tableBytes (nbits w : Nat) : List Byte :=
  let v : Word := BitVec.ofNat 64 (w % 2 ^ nbits)
  bytesOfWord v ++ List.replicate (payloadLength v) 0

/-- The instruction the decoder reads from a table word, and none where it refuses. -/
def decodeTableWord (nbits w : Nat) : Option Instr :=
  match decodeBytes (tableBytes nbits w) with
  | .ok (i, _) => some i
  | .error _ => none

end Sys2Proof
end

