-- ==== Sys2Proof/Machine/State.lean ====
section
/-! DEFINITION. The state of the controller (10_state.md), the outside world's inputs and the
observation that stand beside it, the ways a step can stop, and the state after reset. -/

namespace Sys2Proof.Machine

/-! ## Named values -/

/-- `SESSION`, the lifecycle state (10_state.md R24). -/
inductive Session where
  | uninit | configuring | ready | closed
deriving DecidableEq, Repr

/-- The completion codes of `STATUS.KIND` (60_exceptions.md R240). Codes 6 and 7 never occur (10_state.md R29). -/
inductive Kind where
  | ok | notInitialized | invalidArgument | outOfMemory | busTransactionFailed | illegalCommand
deriving DecidableEq, Repr

/-- `STATUS.ERR_SRC`: which request failed (10_state.md R34). Code 7 is never written. -/
inductive ErrSrc where
  | none | commandFrame | dataFrame | busCreate | devAdd | devRemove | busDelete
deriving DecidableEq, Repr

/-! ## The transport port (10_state.md R36, 43_session.md R210) -/

/-- The timeout passed with a transmission: `T_BUS`, in the unit `TIME_UNIT` (00_scope.md R8, R9). -/
structure Timeout where
  count : Nat
  unit : Nat
deriving DecidableEq, Repr

/-- The five requests of the controller to the transport (10_state.md R36). -/
inductive Request where
  /-- Create a bus on two pins. -/
  | busCreate (scl sda : Byte)
  /-- Attach the device at the 7-bit address `addr` with clock `clkHz`. -/
  | devAdd (bus : Word32) (addr : BitVec 7) (clkHz : Nat)
  /-- One bus transaction to the device handle `dev`. -/
  | transmit (dev : Word32) (bytes : List Byte) (timeout : Timeout)
  /-- Release a device attachment. -/
  | devRemove (dev : Word32)
  /-- Release a bus. -/
  | busDelete (bus : Word32)
deriving DecidableEq, Repr

/-- The transport's answer to a request, as it is observed (00_scope.md R17): success, success with a
handle (`BusCreate` and `DevAdd` only), or failure with a transport error. -/
inductive Answer where
  | ok
  | handle (h : Word32)
  | fail (e : Word32)
deriving DecidableEq, Repr

/-- One request with its answer, and `STATUS` as it reads while the request is made: `BUSY`, `STATE`
and `OWNS` are live (10_state.md R28, R31, R32; log 15). -/
structure Transaction where
  request : Request
  answer : Answer
  status : Word32
deriving DecidableEq, Repr

/-- One diagnostic record `DIAG(PAGE_OUT_OF_RANGE, c, x_col, y_page)` (60_exceptions.md R265); the
first field has one value and is not stored. -/
structure Diag where
  c : Byte
  xCol : Nat
  yPage : Nat
deriving DecidableEq, Repr

/-! ## The host's side -/

/-- One move of the host or the platform (log 2, log 13). -/
inductive HostMove where
  /-- The host sends bytes on the command port: one command after the other, each its word and its
  payload (30_encoding.md R88, 20_memory.md R62). A step takes the first command. -/
  | send (bytes : List Byte)
  /-- The host sends bytes, and the platform asserts block reset while the first command is busy, after
  that command's `k`-th transport request or diagnostic record (70_reset_and_hazards.md R271), or, where the
  bytes end inside that command, before its remaining bytes arrive (log 13). -/
  | sendThenReset (bytes : List Byte) (k : Nat)
  /-- The platform asserts block reset (70_reset_and_hazards.md R270). -/
  | blockReset
  /-- The host writes `STATUS`: no effect (10_state.md R40). -/
  | writeStatus (v : Word32)
  /-- The host writes `TERR`: no effect (10_state.md R40). -/
  | writeTerr (v : Word32)
deriving DecidableEq, Repr

/-- The parameters the model takes as arguments (00_scope.md R9). They stand in State, where no step
changes them (log 9). -/
structure Params where
  /-- `T_BUS`. -/
  tBus : Nat
  /-- `TIME_UNIT`. -/
  timeUnit : Nat
  /-- `BUS_CLK_HZ`. -/
  busClkHz : Nat
  /-- `TEXT_MAX`, 1..65535. -/
  textMax : Nat
  /-- `ALLOC_MAY_FAIL`. -/
  allocMayFail : Bool
  /-- `SSD_COLADDR`. -/
  ssdColAddr : Byte
  /-- `SSD_PAGEADDR`. -/
  ssdPageAddr : Byte
deriving DecidableEq, Repr

/-- The framebuffer: cells at strictly rising addresses, none of them 0x00, which is what an unlisted
address reads as (log 5). -/
abbrev Memory := List Host.Cell

/-! ## The state -/

/-- Everything the spec gives the controller (10_state.md R20, R38), its parameters, the inputs still to
come, and the observation so far. -/
structure State where
  /-- `FB`, the framebuffer (R21). -/
  fb : Memory
  /-- `GLYPH_ROM` (R22); no command writes it. -/
  glyphRom : Vector Config.Glyph 95
  /-- `INIT_SEQ` (R23); no command writes it. -/
  initSeq : Vector Byte 26
  /-- `SESSION` (R24). -/
  session : Session
  /-- `OWNS` (R25). -/
  owns : Bool
  /-- `DEV_ID` (R26). -/
  devId : Word32
  /-- `BUS_ID` (R26). -/
  busId : Word32
  /-- `SEQ` (R27). -/
  seq : BitVec 5
  /-- `CMD` (R39), write-only. -/
  cmd : Word
  /-- `STATUS.KIND` (R29). -/
  kind : Kind
  /-- `STATUS.BUSY` (R30). -/
  busy : Bool
  /-- `STATUS.RESULT` (R33). -/
  result : Bool
  /-- `STATUS.ERR_BYTE` (R34). -/
  errByte : Byte
  /-- `STATUS.ERR_STEP` (R34). -/
  errStep : BitVec 5
  /-- `STATUS.ERR_SRC` (R34). -/
  errSrc : ErrSrc
  /-- `TERR` (R35). -/
  terr : Word32
  /-- `CUR_X` (R37). -/
  curX : Nat
  /-- `CUR_Y` (R37). -/
  curY : Nat
  /-- The ghost `PANEL_WIN_KNOWN` (R38). -/
  panelWinKnown : Bool
  /-- The parameters of 00_scope.md R9. -/
  params : Params
  /-- Input: the moves still to come (log 2). -/
  host : List HostMove
  /-- Input: the transport's answers still to come (log 3). -/
  replies : List Config.Reply
  /-- Input: the draws of `AllocOK()` still to come (log 4). -/
  allocs : List Bool
  /-- The counter the free values of Config are applied to (log 3). -/
  draws : Nat
  /-- Observation: the requests made, in order (00_scope.md R17). -/
  trace : List Transaction
  /-- Observation: the diagnostic records, in order (00_scope.md R17). -/
  diag : List Diag
deriving DecidableEq, Repr

/-! ## How a step can stop -/

/-- The faults: the host's broken duties of 60_exceptions.md R267, which 93_implementation_defined.md U16
treats as `stuck` (log 12). No command's meaning raises one. -/
inductive Fault where
  /-- Raised by `step` where the host sends a command while `STATUS.BUSY = 1`. Safe: the machine stops. -/
  | commandWhileBusy
  /-- Raised by `step` where the host's bytes end inside a command word or its payload and no block reset
  follows them (log 12, log 13). Safe: the machine stops. -/
  | commandIncomplete
deriving DecidableEq, Repr

/-- The refusals. -/
inductive Refusal where
  /-- Raised by `exec` for an instruction that has no meaning yet. Safe. No arm raises it now. -/
  | notModelled (mnemonic : String)
deriving DecidableEq, Repr

/-! ## Reset -/

/-- The parameters after reset: the spec's defaults where it gives them, free constants elsewhere
(00_scope.md R9; log 9, log 11). -/
def Params.reset : Params where
  tBus := 100
  timeUnit := Config.freeTimeUnit
  busClkHz := Config.freeBusClkHz
  textMax := Config.freeTextMaxPred.val + 1
  allocMayFail := true
  ssdColAddr := 0x21
  ssdPageAddr := 0x22

/-- The state after power-up reset (10_state.md R42, 70_reset_and_hazards.md R270, R272). `FB` is
unspecified there: nothing listed (log 5). `CMD`, `CUR_X` and `CUR_Y` are the model's choice (log 7,
log 8). -/
def State.reset : State where
  fb := []
  glyphRom := Config.glyphRom
  initSeq := Config.initSeqTable
  session := .uninit
  owns := false
  devId := 0
  busId := 0
  seq := 0
  cmd := 0
  kind := .ok
  busy := false
  result := false
  errByte := 0
  errStep := 0
  errSrc := .none
  terr := 0
  curX := 0
  curY := 0
  panelWinKnown := false
  params := Params.reset
  host := []
  replies := []
  allocs := []
  draws := 0
  trace := []
  diag := []

end Sys2Proof.Machine
end

