-- ==== Sys2Proof/Machine/Flags.lean ====
section
/-! DEFINITION. The status register as it reads, and the one operation that ends a command: completion
codes, error detail, `TERR` (10_state.md R28 to R35, 60_exceptions.md R240 to R243). -/

namespace Sys2Proof.Machine

/-! ## Codes -/

/-- The two bits of `SESSION` (10_state.md R24). -/
def Session.code : Session → BitVec 2
  | .uninit => 0
  | .configuring => 1
  | .ready => 2
  | .closed => 3

/-- The three bits of `STATUS.KIND` (60_exceptions.md R240). -/
def Kind.code : Kind → BitVec 3
  | .ok => 0
  | .notInitialized => 1
  | .invalidArgument => 2
  | .outOfMemory => 3
  | .busTransactionFailed => 4
  | .illegalCommand => 5

/-- The three bits of `STATUS.ERR_SRC` (10_state.md R34). -/
def ErrSrc.code : ErrSrc → BitVec 3
  | .none => 0
  | .commandFrame => 1
  | .dataFrame => 2
  | .busCreate => 3
  | .devAdd => 4
  | .devRemove => 5
  | .busDelete => 6

/-! ## The host-visible registers (10_state.md R40) -/

/-- `STATUS` as the host reads it (R28): bits 31:24 read 0, `STATE` and `OWNS` are live mirrors
(R31, R32). -/
def statusWord (s : State) : Word32 :=
  0#8 ++ s.errSrc.code ++ s.errStep ++ s.errByte ++ BitVec.ofBool s.result ++ BitVec.ofBool s.owns
    ++ s.session.code ++ BitVec.ofBool s.busy ++ s.kind.code

/-- `TERR` as the host reads it (R35). -/
def terrWord (s : State) : Word32 := s.terr

/-! ## Ending a command -/

/-- What a completion records (60_exceptions.md R241). -/
structure Completion where
  kind : Kind
  errSrc : ErrSrc := .none
  errByte : Byte := 0
  errStep : BitVec 5 := 0
  terr : Word32 := 0
deriving DecidableEq, Repr

/-- `complete OK` (R242). -/
def completionOk : Completion := { kind := .ok }
/-- `NotInitialized()`: every detail field 0 (R241). -/
def notInitialized : Completion := { kind := .notInitialized }
/-- `InvalidArgument()`: every detail field 0 (R241). -/
def invalidArgument : Completion := { kind := .invalidArgument }
/-- `IllegalCommand()`: every detail field 0 (R241). -/
def illegalCommand : Completion := { kind := .illegalCommand }
/-- A data frame could not be assembled at step `step` (R241, 42_bus_protocol.md R171). -/
def outOfMemory (step : BitVec 5) : Completion := { kind := .outOfMemory, errSrc := .dataFrame, errStep := step }
/-- The command frame of byte `b` failed at step `step` (R241, 42_bus_protocol.md R170). -/
def commandFrameFailed (b : Byte) (step : BitVec 5) (e : Word32) : Completion :=
  { kind := .busTransactionFailed, errSrc := .commandFrame, errByte := b, errStep := step, terr := e }
/-- A data frame failed at step `step` (R241, 42_bus_protocol.md R171). -/
def dataFrameFailed (step : BitVec 5) (e : Word32) : Completion :=
  { kind := .busTransactionFailed, errSrc := .dataFrame, errStep := step, terr := e }
/-- A resource request failed (R241). -/
def resourceFailed (src : ErrSrc) (e : Word32) : Completion :=
  { kind := .busTransactionFailed, errSrc := src, terr := e }

/-- End the current command: write the completion fields, `SEQ <- 0` and `BUSY <- 0` in one step. This is
`complete OK` and `raise Kind(detail)` alike (R242, R243), the controller's one way to take an error; the
return from it is the next command (R248). -/
def finish (c : Completion) (s : State) : State :=
  { s with
    kind := c.kind, errSrc := c.errSrc, errByte := c.errByte, errStep := c.errStep, terr := c.terr,
    seq := 0, busy := false }

/-- `complete OK` (R242). -/
def complete (s : State) : State := finish completionOk s

end Sys2Proof.Machine
end

