-- ==== Sys2Proof/Machine/Operands.lean ====
section
/-! DEFINITION. How operands become places: the page and column decoder (20_memory.md R51 to R56), the
glyph ROM's addressing, the bits of a framebuffer byte, and the string of a payload. -/

namespace Sys2Proof.Machine

open Config

/-! ## The decoder of the framebuffer -/

/-- Framebuffer index of column `x` of page `p` (R52). -/
def columnIndex (x p : Nat) : Nat := x + p * W

/-- Framebuffer index of pixel `(x, y)` (R51). -/
def pixelIndex (x y : Nat) : Nat := columnIndex x (y / 8)

/-- Bit of pixel `(x, y)` in its byte (R51, R54). -/
def pixelBit (y : Nat) : Nat := y % 8

/-- A pixel is in range (R55). -/
def pixelInRange (x y : Nat) : Bool := x < W && y < H

/-- Column of framebuffer byte `i` (R53). -/
def indexColumn (i : Nat) : Nat := i % W

/-- Page of framebuffer byte `i` (R53). -/
def indexPage (i : Nat) : Nat := i / W

/-- Row of bit `b` of framebuffer byte `i` (R53). -/
def indexRow (i b : Nat) : Nat := indexPage i * 8 + b

/-! ## Bits of a framebuffer byte (00_scope.md R11) -/

/-- `1 << b` as a byte (R11). -/
def bitMask (b : Nat) : Byte := 1#8 <<< b

/-- A byte with its bit `b` set to `on` and the others kept (41_framebuffer.md R123). -/
def setBit (v : Byte) (b : Nat) (on : Bool) : Byte := if on then v ||| bitMask b else v &&& ~~~(bitMask b)

/-! ## The glyph ROM (20_memory.md R56) -/

/-- Glyph index of a character code: the entry of the question mark outside 32..126 (R56). -/
def glyphIndex (c : Byte) : Fin GLYPH_COUNT :=
  if h : GLYPH_FIRST ≤ c.toNat ∧ c.toNat ≤ GLYPH_LAST then
    ⟨c.toNat - GLYPH_FIRST, by simp only [GLYPH_FIRST, GLYPH_LAST, GLYPH_COUNT] at *; omega⟩
  else ⟨31, by decide⟩

/-- `GlyphRead(g, k)` (00_scope.md R13). -/
def glyphRead (rom : Vector Glyph 95) (g : Fin GLYPH_COUNT) (k : Fin GLYPH_W) : Byte := (rom.get g).get k

/-! ## Rectangles and strings -/

/-- The arguments of CLEAR_AREA are valid; the sums are exact (41_framebuffer.md R132, 00_scope.md R10). -/
def areaValid (x pg wd ht : Nat) : Bool := 0 < wd && 0 < ht && x + wd ≤ W && pg + ht ≤ PAGES

/-- The framebuffer indices of a rectangle, page by page and column by column (R132). -/
def areaIndices (x pg wd ht : Nat) : List Nat :=
  (List.range ht).flatMap fun p => (List.range wd).map fun col => columnIndex (x + col) (pg + p)

/-- The string of a payload: the bytes before its first 0x00 (41_framebuffer.md R130). -/
def payloadString (p : List Byte) : List Byte := p.takeWhile (· ≠ 0)

end Sys2Proof.Machine
end

