-- ==== Sys2Proof/Machine/Ops.lean ====
section
/-! DEFINITION. The named operations over memory, the transport port, reset and the command port. -/

namespace Sys2Proof.Machine

open Config

/-! ## The framebuffer (20_memory.md R50, R58) -/

/-- `MemRead(i, 1)` (00_scope.md R13): an unlisted address reads 0x00 (log 5). -/
def memRead : Memory → Nat → Byte
  | [], _ => 0
  | (a, v) :: m, i => if i = a then v else memRead m i

/-- `MemWrite(i, 1, v)` (00_scope.md R13), keeping the canonical form: rising addresses, and no entry 0x00. -/
def memWrite : Memory → Nat → Byte → Memory
  | [], i, v => if v = 0 then [] else [(i, v)]
  | (a, u) :: m, i, v =>
    if i < a then (if v = 0 then (a, u) :: m else (i, v) :: (a, u) :: m)
    else if i = a then (if v = 0 then m else (i, v) :: m)
    else (a, u) :: memWrite m i v

/-- Write 0x00 to a list of addresses, in order. -/
def memClear (m : Memory) (is : List Nat) : Memory := is.foldl (fun m i => memWrite m i 0) m

/-- The framebuffer with every byte 0x00, in canonical form: nothing listed. -/
def zeroMemory : Memory := []

/-- The canonical form, from an address `lo` on: addresses at least `lo`, strictly rising and below
`FB_SIZE`, and no entry 0x00. -/
def Memory.wfFrom : Nat → Memory → Bool
  | _, [] => true
  | lo, (a, v) :: m => lo ≤ a && a < FB_SIZE && v != 0 && Memory.wfFrom (a + 1) m

/-- The canonical form of the framebuffer; every listed address is one of 0..1023 (20_memory.md R55). -/
def Memory.wf (m : Memory) : Bool := Memory.wfFrom 0 m

/-- The framebuffer's 1024 bytes in ascending order, `FB[0 .. FB_SIZE-1]` (00_scope.md R12). -/
def fbBytes (m : Memory) : List Byte := (List.range FB_SIZE).map (memRead m)

/-! ## Transport requests (10_state.md R36, 20_memory.md R64) -/

/-- The transport's answer to the next request: the next of the list, and a free value where the list is
empty (00_scope.md R19; log 3). -/
def nextReply (s : State) : Reply :=
  match s.replies with
  | r :: _ => r
  | [] => freeReply s.draws

/-- The state after one answer was taken. -/
def dropReply (s : State) : State :=
  { s with replies := s.replies.tail, draws := if s.replies.isEmpty then s.draws + 1 else s.draws }

/-- Record a request with its answer and `STATUS` as it reads meanwhile (00_scope.md R17; log 15). -/
def record (r : Request) (a : Answer) (s : State) : State :=
  { s with trace := s.trace ++ [⟨r, a, statusWord s⟩] }

/-- The transport error of an answer, if it is one. -/
def replyError : Reply → Option Word32
  | .ok _ => none
  | .fail e => some e

/-- What is observed of an answer to `Transmit`, `DevRemove` or `BusDelete`: `ok` or `fail(e)`. -/
def ackAnswer : Reply → Answer
  | .ok _ => .ok
  | .fail e => .fail e

/-- What is observed of an answer to `BusCreate` or `DevAdd`: a nonzero handle or `fail(e)`. -/
def handleAnswer : Reply → Answer
  | .ok h => .handle h.val
  | .fail e => .fail e

/-- The handle of an answer to `BusCreate` or `DevAdd`, or its error. -/
def replyHandle : Reply → Except Word32 Word32
  | .ok h => .ok h.val
  | .fail e => .error e

/-- Issue `Transmit`, `DevRemove` or `BusDelete` and wait for the answer: `none` on success. -/
def requestAck (r : Request) (s : State) : Option Word32 × State :=
  (replyError (nextReply s), record r (ackAnswer (nextReply s)) (dropReply s))

/-- Issue `BusCreate` or `DevAdd` and wait for the answer. -/
def requestHandle (r : Request) (s : State) : Except Word32 Word32 × State :=
  (replyHandle (nextReply s), record r (handleAnswer (nextReply s)) (dropReply s))

/-- The timeout passed with every transmission (00_scope.md R8, 60_exceptions.md R255). -/
def busTimeout (s : State) : Timeout := ⟨s.params.tBus, s.params.timeUnit⟩

/-- `Transmit(bytes)` to `DEV_ID` with timeout `T_BUS` (10_state.md R36, 42_bus_protocol.md R174). -/
def transmit (bytes : List Byte) (s : State) : Option Word32 × State :=
  requestAck (.transmit s.devId bytes (busTimeout s)) s

/-- `AllocOK()`: true where `ALLOC_MAY_FAIL` is false, otherwise the next draw (42_bus_protocol.md R172). -/
def allocOk (s : State) : Bool :=
  if s.params.allocMayFail then
    match s.allocs with
    | b :: _ => b
    | [] => freeAlloc s.draws
  else true

/-- The state after `AllocOK()` was asked: one draw is taken where there is a draw. -/
def dropAlloc (s : State) : State :=
  if s.params.allocMayFail then
    { s with allocs := s.allocs.tail, draws := if s.allocs.isEmpty then s.draws + 1 else s.draws }
  else s

/-! ## Commands: session check and illegal words -/

/-- The session check of every command but INIT_* (41_framebuffer.md R121, 60_exceptions.md R245). -/
def whenReady (f : State → State) (s : State) : State :=
  if s.session = .ready then f s else finish notInitialized s

/-- The completion of an illegal word: the completion fields and nothing else (30_encoding.md R86, R87). -/
def illegalWord (s : State) : State := finish illegalCommand s

/-! ## Block reset (70_reset_and_hazards.md R270, R271) -/

/-- A framebuffer of free bytes, in canonical form (93_implementation_defined.md U1; log 6). -/
def freeFramebuffer (n : Nat) : Memory :=
  ((List.range FB_SIZE).map fun i => (i, freeFbByte n i)).filter fun c => c.2 != 0

/-- Block reset: every piece of state at its value of 10_state.md R42, with the framebuffer free. It
issues no request; the read-only memories, the parameters, the inputs and the observation are not its to
change. -/
def blockReset (s : State) : State :=
  { State.reset with
    fb := freeFramebuffer s.draws, glyphRom := s.glyphRom, initSeq := s.initSeq, params := s.params,
    host := s.host, replies := s.replies, allocs := s.allocs, draws := s.draws + 1,
    trace := s.trace, diag := s.diag }

/-- Block reset while a command is busy (R271): the command, which would have led from `s` to `t`, is
abandoned after its `k`-th request or diagnostic record, and no further request of it is issued (log 13). -/
def abandon (k : Nat) (s t : State) : State :=
  { blockReset t with
    trace := t.trace.take (s.trace.length + k)
    diag := t.diag.take (s.diag.length + k)
    replies := s.replies.drop (min k (t.trace.length - s.trace.length)) }

/-! ## The command port (10_state.md R39, 30_encoding.md R89) -/

/-- The host's moves after one command was taken from its bytes. -/
def restMoves (rest : List Byte) (ms : List HostMove) : List HostMove :=
  match rest with
  | [] => ms
  | b :: bs => .send (b :: bs) :: ms

/-- Accept a command: its word stands in `CMD`, all its payload is taken from the port, and the
controller is busy (10_state.md R30, R39, 30_encoding.md R89). -/
def accept (c : Fetched) (ms : List HostMove) (s : State) : State :=
  { s with host := restMoves c.rest ms, cmd := c.word, busy := true }

end Sys2Proof.Machine
end

