-- ==== Sys2Proof/Machine/Bus.lean ====
section
/-! DEFINITION. The frame primitives, the initialisation sequence and UPDATE_SCREEN (42_bus_protocol.md).
A primitive answers `none` on success and the completion to raise on failure. -/

namespace Sys2Proof.Machine

open Config

/-- `SEQ <- SEQ + 1` after a frame the transport acknowledged (10_state.md R27). -/
def seqAdvance (s : State) : State := { s with seq := s.seq + 1 }

/-- `SendCommand(b)` (42_bus_protocol.md R170). -/
def sendCommand (b : Byte) (s : State) : Option Completion × State :=
  match transmit [CTRL_CMD, b] s with
  | (some e, t) => (some (commandFrameFailed b s.seq e), t)
  | (none, t) => (none, seqAdvance t)

/-- Send bytes in command frames of their own, in order, up to the first failure (42_bus_protocol.md R173). -/
def sendCommands : List Byte → State → Option Completion × State
  | [], s => (none, s)
  | b :: bs, s =>
    match sendCommand b s with
    | (some c, t) => (some c, t)
    | (none, t) => sendCommands bs t

/-- Transmit an assembled data frame (42_bus_protocol.md R171). -/
def sendFrame (bs : List Byte) (s : State) : Option Completion × State :=
  match transmit (CTRL_DATA :: bs) s with
  | (some e, t) => (some (dataFrameFailed s.seq e), t)
  | (none, t) => (none, seqAdvance t)

/-- `SendData(bs)` (42_bus_protocol.md R171, R172): an empty payload is a success without a request. -/
def sendData (bs : List Byte) (s : State) : Option Completion × State :=
  if bs.isEmpty then (none, s)
  else if allocOk s then sendFrame bs (dropAlloc s)
  else (some (outOfMemory s.seq), dropAlloc s)

/-- `RunInitSequence()` (42_bus_protocol.md R178). -/
def runInitSequence (s : State) : Option Completion × State :=
  sendCommands s.initSeq.toList { s with seq := 0 }

/-- The six bytes that set the address window to the whole panel (42_bus_protocol.md R180, R181). -/
def windowBytes (s : State) : List Byte :=
  [s.params.ssdColAddr, 0x00, BitVec.ofNat 8 (W - 1), s.params.ssdPageAddr, 0x00, BitVec.ofNat 8 (PAGES - 1)]

/-- The seven frames of UPDATE_SCREEN (42_bus_protocol.md R180). -/
def sendScreen (s : State) : Option Completion × State :=
  match sendCommands (windowBytes s) { s with seq := 0 } with
  | (some c, t) => (some c, t)
  | (none, t) => sendData (fbBytes s.fb) t

/-- UPDATE_SCREEN in a READY session (42_bus_protocol.md R180, R183). -/
def updateScreen (s : State) : State :=
  match sendScreen s with
  | (some c, t) => finish c { t with panelWinKnown := false }
  | (none, t) => complete { t with panelWinKnown := true }

/-- UPDATE_SCREEN (42_bus_protocol.md R180). -/
def execUpdateScreen (s : State) : Host.Outcome State Fault Refusal :=
  .next (whenReady updateScreen s)

end Sys2Proof.Machine
end

