-- ==== Sys2Proof/Machine/Framebuffer.lean ====
section
/-! DEFINITION. SET_PIXEL, GET_PIXEL, DRAW_CHAR, DRAW_TEXT, CLEAR_AREA, CLEAR_DISPLAY (41_framebuffer.md). -/

namespace Sys2Proof.Machine

open Config

/-! ## Primitives -/

/-- `PixelWrite(x, y, on)` on a framebuffer (41_framebuffer.md R123). -/
def pixelMem (m : Memory) (x y : Nat) (on : Bool) : Memory :=
  if pixelInRange x y then
    memWrite m (pixelIndex x y) (setBit (memRead m (pixelIndex x y)) (pixelBit y) on)
  else m

/-- Write one column of a glyph, if it lands on the screen (41_framebuffer.md R125). -/
def glyphColumn (rom : Vector Glyph 95) (g : Fin GLYPH_COUNT) (x p : Nat) (m : Memory) (k : Fin GLYPH_W) : Memory :=
  if x + k.val < W then memWrite m (columnIndex (x + k.val) p) (glyphRead rom g k) else m

/-- The five columns of a glyph, left to right (41_framebuffer.md R125). -/
def glyphMem (rom : Vector Glyph 95) (m : Memory) (c : Byte) (x p : Nat) : Memory :=
  [0, 1, 2, 3, 4].foldl (glyphColumn rom (glyphIndex c) x p) m

/-- `DrawGlyph(c, x_col, y_page)` (41_framebuffer.md R125): a page out of range draws nothing and emits
one diagnostic record (60_exceptions.md R265). -/
def drawGlyph (c : Byte) (x p : Nat) (s : State) : State :=
  if p ≥ PAGES then { s with diag := s.diag ++ [⟨c, x, p⟩] }
  else { s with fb := glyphMem s.glyphRom s.fb c x p }

/-- Draw a character where the walk stands and advance (41_framebuffer.md R129). -/
def drawAdvance (c : Byte) (s : State) : State :=
  let t := drawGlyph c s.curX s.curY s
  { t with curX := s.curX + GLYPH_ADV }

/-- Wrap to column `x` of the next page (41_framebuffer.md R129). -/
def wrapLine (x : Nat) (s : State) : State := { s with curX := x, curY := s.curY + 1 }

/-- The walk of `LayoutText` from where `CUR_X` and `CUR_Y` stand (41_framebuffer.md R129). -/
def layoutWalk (x : Nat) : List Byte → State → State
  | [], s => s
  | c :: cs, s =>
    if s.curX + GLYPH_W ≥ W then
      if (wrapLine x s).curY ≥ PAGES then wrapLine x s
      else layoutWalk x cs (drawAdvance c (wrapLine x s))
    else layoutWalk x cs (drawAdvance c s)

/-- `LayoutText(x, y_page, s)` (41_framebuffer.md R129). -/
def layoutText (x p : Nat) (str : List Byte) (s : State) : State :=
  layoutWalk x str { s with curX := x, curY := p }

/-! ## Commands -/

/-- SET_PIXEL (41_framebuffer.md R122). -/
def execSetPixel (x y : Byte) (on : Bool) (s : State) : Host.Outcome State Fault Refusal :=
  .next (whenReady (fun s => complete { s with fb := pixelMem s.fb x.toNat y.toNat on }) s)

/-- GET_PIXEL in a READY session (41_framebuffer.md R124). -/
def getPixel (x y : Nat) (s : State) : State :=
  if pixelInRange x y then
    complete { s with result := (memRead s.fb (pixelIndex x y)).getLsbD (pixelBit y) }
  else finish invalidArgument s

/-- GET_PIXEL (41_framebuffer.md R124). -/
def execGetPixel (x y : Byte) (s : State) : Host.Outcome State Fault Refusal :=
  .next (whenReady (getPixel x.toNat y.toNat) s)

/-- DRAW_CHAR (41_framebuffer.md R127). -/
def execDrawChar (c x pg : Byte) (s : State) : Host.Outcome State Fault Refusal :=
  .next (whenReady (fun s => complete (drawGlyph c x.toNat pg.toNat s)) s)

/-- The arguments of DRAW_TEXT are well formed: a string is present and not too long (41_framebuffer.md R131). -/
def textValid (sp : Bool) (len : Nat) (s : State) : Bool := sp && len ≤ s.params.textMax

/-- DRAW_TEXT in a READY session (41_framebuffer.md R128). -/
def drawText (x pg : Nat) (sp : Bool) (p : List Byte) (s : State) : State :=
  if textValid sp p.length s then complete (layoutText x pg (payloadString p) s)
  else finish invalidArgument s

/-- DRAW_TEXT (41_framebuffer.md R128). Its payload was taken from the port with its word (`accept`). -/
def execDrawText (x pg : Byte) (sp : Bool) (p : List Byte) (s : State) : Host.Outcome State Fault Refusal :=
  .next (whenReady (drawText x.toNat pg.toNat sp p) s)

/-- CLEAR_AREA in a READY session (41_framebuffer.md R132). -/
def clearArea (x pg wd ht : Nat) (s : State) : State :=
  if areaValid x pg wd ht then complete { s with fb := memClear s.fb (areaIndices x pg wd ht) }
  else finish invalidArgument s

/-- CLEAR_AREA (41_framebuffer.md R132). -/
def execClearArea (x pg wd ht : Byte) (s : State) : Host.Outcome State Fault Refusal :=
  .next (whenReady (clearArea x.toNat pg.toNat wd.toNat ht.toNat) s)

/-- CLEAR_DISPLAY (41_framebuffer.md R133). -/
def execClearDisplay (s : State) : Host.Outcome State Fault Refusal :=
  .next (whenReady (fun s => complete { s with fb := zeroMemory }) s)

end Sys2Proof.Machine
end

