-- ==== Sys2Proof/Machine/Session.lean ====
section
/-! DEFINITION. INIT_OWNING, INIT_BORROWING and DEINIT (43_session.md). -/

namespace Sys2Proof.Machine

open Config

/-- The session check of the INIT_* commands (43_session.md R216, R217, 60_exceptions.md R245). -/
def whenInitAllowed (f : State → State) (s : State) : State :=
  match s.session with
  | .closed => finish notInitialized s
  | .ready => finish illegalCommand s
  | .uninit | .configuring => f s

/-- The common end of the two INIT_* commands, from the zeroing of the framebuffer on (43_session.md R211,
R213): `undo` is the command's clean-up where a frame fails. -/
def configurePanel (undo : State → State) (s : State) : State :=
  match runInitSequence { s with fb := zeroMemory, panelWinKnown := false } with
  | (some c, t) => finish c (undo t)
  | (none, t) => complete { t with session := .ready }

/-- Release the owned device attachment, then the owned bus, ignoring both answers (43_session.md R212). -/
def releaseOwned (s : State) : State :=
  let t := (requestAck (.devRemove s.devId) s).2
  (requestAck (.busDelete t.busId) t).2

/-- The rollback of INIT_OWNING where a frame fails (43_session.md R211, R212). -/
def undoOwning (s : State) : State :=
  { releaseOwned s with devId := 0, busId := 0, owns := false, session := .uninit }

/-- INIT_OWNING once the bus was created: attach the device, then configure (43_session.md R211). -/
def attachDevice (s : State) : State :=
  match requestHandle (.devAdd s.busId PANEL_ADDR s.params.busClkHz) s with
  | (.error e, t) =>
    let u := (requestAck (.busDelete t.busId) t).2
    finish (resourceFailed .devAdd e) { u with busId := 0, session := .uninit }
  | (.ok dev, t) => configurePanel undoOwning { t with devId := dev, owns := true }

/-- INIT_OWNING where the session allows it (43_session.md R211). -/
def initOwning (scl sda : Byte) (s : State) : State :=
  match requestHandle (.busCreate scl sda) { s with session := .configuring } with
  | (.error e, t) => finish (resourceFailed .busCreate e) { t with session := .uninit }
  | (.ok bus, t) => attachDevice { t with busId := bus }

/-- INIT_OWNING (43_session.md R211). -/
def execInitOwning (scl sda : Byte) (s : State) : Host.Outcome State Fault Refusal :=
  .next (whenInitAllowed (initOwning scl sda) s)

/-- The clean-up of INIT_BORROWING where a frame fails: nothing is released (43_session.md R213, R219). -/
def undoBorrowing (s : State) : State := { s with devId := 0, session := .uninit }

/-- INIT_BORROWING where the session allows it (43_session.md R213). -/
def initBorrowing (handle : Word32) (s : State) : State :=
  if handle = 0 then finish notInitialized s
  else configurePanel undoBorrowing { s with session := .configuring, devId := handle, busId := 0, owns := false }

/-- INIT_BORROWING (43_session.md R213). -/
def execInitBorrowing (handle : Word32) (s : State) : Host.Outcome State Fault Refusal :=
  .next (whenInitAllowed (initBorrowing handle) s)

/-- The completion of DEINIT from its two answers: the first failure is reported (43_session.md R214, R221). -/
def deinitCompletion : Option Word32 → Option Word32 → Completion
  | some e, _ => resourceFailed .devRemove e
  | none, some e => resourceFailed .busDelete e
  | none, none => completionOk

/-- Close the session; `OWNS` keeps its value (43_session.md R214, R218). -/
def closeSession (s : State) : State := { s with devId := 0, busId := 0, session := .closed }

/-- DEINIT in a READY session: an owning session releases both resources, whatever the first answer
(43_session.md R214, R219, R220). -/
def deinit (s : State) : State :=
  if s.owns then
    let r1 := requestAck (.devRemove s.devId) s
    let r2 := requestAck (.busDelete r1.2.busId) r1.2
    finish (deinitCompletion r1.1 r2.1) (closeSession r2.2)
  else complete (closeSession s)

/-- DEINIT (43_session.md R214). -/
def execDeinit (s : State) : Host.Outcome State Fault Refusal :=
  .next (whenReady deinit s)

end Sys2Proof.Machine
end

