-- ==== Sys2Proof/Machine/Dispatch.lean ====
section
/-! DEFINITION. The dispatch of the commands: one arm per constructor of `Instr`, each a direct call of its meaning. -/

namespace Sys2Proof.Machine

def exec (i : Instr) (s : State) : Host.Outcome State Fault Refusal :=
  match i with
  | .initOwning scl sda => Sys2Proof.Machine.execInitOwning scl sda s
  | .initBorrowing handle => Sys2Proof.Machine.execInitBorrowing handle s
  | .deinit => Sys2Proof.Machine.execDeinit s
  | .setPixel x y on => Sys2Proof.Machine.execSetPixel x y on s
  | .getPixel x y => Sys2Proof.Machine.execGetPixel x y s
  | .drawChar c x pg => Sys2Proof.Machine.execDrawChar c x pg s
  | .drawText x pg sp payload => Sys2Proof.Machine.execDrawText x pg sp payload s
  | .clearArea x pg wd ht => Sys2Proof.Machine.execClearArea x pg wd ht s
  | .clearDisplay => Sys2Proof.Machine.execClearDisplay s
  | .updateScreen => Sys2Proof.Machine.execUpdateScreen s

end Sys2Proof.Machine
end

