-- ==== Sys2Proof/Machine/Port.lean ====
section
/-! DEFINITION. Running what the host puts on the command port (10_state.md R39), alone or with block reset
before the command ends (70_reset_and_hazards.md R271). -/

namespace Sys2Proof.Machine

/-- Take one command from the bytes the host sends, decode it and run it to completion. An illegal word
completes with `IllegalCommand` (30_encoding.md R86, R87). The two faults are the host's broken duties
(60_exceptions.md R267; log 12). -/
def runCommand (bytes : List Byte) (ms : List HostMove) (s : State) : Host.Outcome State Fault Refusal :=
  if s.busy then .fault .commandWhileBusy
  else
    match fetchCommand bytes with
    | none => .fault .commandIncomplete
    | some c =>
      match decodeWord c.word c.payload with
      | .ok i => exec i (accept c ms s)
      | .error _ => .next (illegalWord (accept c ms s))

/-- Run the first command of the bytes the host sends, with block reset while it is busy: the command is
abandoned (70_reset_and_hazards.md R271). Where the bytes end inside the command, or there are none, reset is
taken while the controller waits for the next byte: no request and no record of that command was made
(41_framebuffer.md R128 receives the payload first), and the bytes that had arrived are lost with it. Where in
a command reset lands, and what becomes of those bytes, is the model's choice, DESIGN CHOICE (log 13). -/
def runThenReset (bytes : List Byte) (k : Nat) (ms : List HostMove) (s : State) : Host.Outcome State Fault Refusal :=
  match runCommand bytes ms s with
  | .next t => .next (abandon k s t)
  | .fault .commandIncomplete => .next (blockReset { s with host := ms })
  | .fault .commandWhileBusy => .fault .commandWhileBusy
  | .refused r => .refused r

end Sys2Proof.Machine
end

