-- ==== Sys2Proof/Machine/Step.lean ====
section
/-! DEFINITION. One step of the model: the next move of the host or the platform (10_state.md R39,
00_scope.md R15). A command runs to completion in one step (20_memory.md R59; log 1). -/

namespace Sys2Proof.Machine

/-- One step. With no move left, and where a move sends no byte, nothing happens: the controller waits
(70_reset_and_hazards.md R272; log 14). -/
def step (s : State) : Host.Outcome State Fault Refusal :=
  match s.host with
  | [] => .next s
  | .send [] :: ms => .next { s with host := ms }
  | .send (b :: bs) :: ms => runCommand (b :: bs) ms s
  | .sendThenReset bytes k :: ms => runThenReset bytes k ms s
  | .blockReset :: ms => .next (blockReset { s with host := ms })
  | .writeStatus _ :: ms => .next { s with host := ms }
  | .writeTerr _ :: ms => .next { s with host := ms }

/-- `s` with the command of a table word as the host's very next move, and the controller not busy, so
that the next step takes it and runs it (log 2). -/
def State.withFetchWord (s : State) (nbits w : Nat) : State :=
  { s with host := .send (tableBytes nbits w) :: s.host, busy := false }

end Sys2Proof.Machine
end

