-- ==== Sys2Proof/Safety.lean ====
section
/-! DEFINITION. The terms in which claims are stated: what holds between commands, how a command ends,
what its requests are, and who owns what. Nothing here is used by the machine. -/

namespace Sys2Proof.Safety

open Sys2Proof.Machine

/-! ## Between commands (10_state.md R41) -/

/-- What holds between commands: the five implications of R41, an idle controller (R27, R30), a
framebuffer in canonical form whose listed addresses are all 0..1023 (20_memory.md R55), `TEXT_MAX` in
its range (00_scope.md R9), and the given contents of the two read-only memories (R22, R23). -/
structure Inv (s : State) : Prop where
  idle : s.busy = false
  seqZero : s.seq = 0
  notConfiguring : s.session ≠ .configuring
  readyDevice : s.session = .ready → s.devId ≠ 0
  readyOwnsBus : s.session = .ready → s.owns = true → s.busId ≠ 0
  uninitClear : s.session = .uninit → s.devId = 0 ∧ s.busId = 0 ∧ s.owns = false
  closedClear : s.session = .closed → s.devId = 0 ∧ s.busId = 0
  memoryForm : s.fb.wf = true
  textMaxRange : 1 ≤ s.params.textMax ∧ s.params.textMax ≤ 65535
  glyphEntryA : s.glyphRom.get 33 = Config.glyphA
  initSeqTable : s.initSeq = Config.initSeqTable

/-! ## How a command ends (60_exceptions.md R241 to R243) -/

/-- `s` with the completion fields rewritten, `SEQ` 0 and `BUSY` 0: every field a completion writes, and
no other. -/
def ended (k : Kind) (src : ErrSrc) (byte : Byte) (step : BitVec 5) (terr : Word32) (s : State) : State :=
  { s with kind := k, errSrc := src, errByte := byte, errStep := step, terr := terr, seq := 0, busy := false }

/-- A completion whose detail fields are all 0: `OK`, `NotInitialized`, `InvalidArgument`, `IllegalCommand`. -/
def endedPlain (k : Kind) (s : State) : State := ended k .none 0 0 0 s

/-- A completion because a command frame failed. -/
def endedCommandFrame (b : Byte) (step : BitVec 5) (e : Word32) (s : State) : State :=
  ended .busTransactionFailed .commandFrame b step e s

/-- A completion because a resource request failed. -/
def endedResource (src : ErrSrc) (e : Word32) (s : State) : State :=
  ended .busTransactionFailed src 0 0 e s

/-! ## Kinds of instruction -/

/-- The six commands of 41_framebuffer.md. -/
def isFramebuffer : Instr → Bool
  | .setPixel _ _ _ | .getPixel _ _ | .drawChar _ _ _ | .drawText _ _ _ _ | .clearArea _ _ _ _ | .clearDisplay => true
  | .initOwning _ _ | .initBorrowing _ | .deinit | .updateScreen => false

/-- The two INIT_* commands. -/
def isInit : Instr → Bool
  | .initOwning _ _ | .initBorrowing _ => true
  | .deinit | .setPixel _ _ _ | .getPixel _ _ | .drawChar _ _ _ | .drawText _ _ _ _ | .clearArea _ _ _ _
  | .clearDisplay | .updateScreen => false

/-- The completion codes a decoded command can end with (60_exceptions.md R246). The code IllegalCommand
stands here only for INIT_* in READY; a reserved bit is no decoded command. -/
def possibleKinds : Instr → List Kind
  | .initOwning _ _ | .initBorrowing _ => [.ok, .notInitialized, .busTransactionFailed, .illegalCommand]
  | .deinit => [.ok, .notInitialized, .busTransactionFailed]
  | .setPixel _ _ _ | .drawChar _ _ _ | .clearDisplay => [.ok, .notInitialized]
  | .getPixel _ _ | .drawText _ _ _ _ | .clearArea _ _ _ _ => [.ok, .notInitialized, .invalidArgument]
  | .updateScreen => [.ok, .notInitialized, .outOfMemory, .busTransactionFailed]

/-- The session state after a command, from the state before it and its completion code (43_session.md R215).
CONFIGURING is no state between commands (10_state.md R24). -/
def sessionAfter (before : Session) (i : Instr) (k : Kind) : Session :=
  match before with
  | .uninit => if isInit i && k == .ok then .ready else .uninit
  | .configuring => .configuring
  | .ready => if i == .deinit then .closed else .ready
  | .closed => .closed

/-- The reserved bits of a defined opcode's word (30_encoding.md R85), and none for an undefined opcode
(R84). -/
def reservedBits (op : Byte) : Option Word :=
  match op with
  | 0x01#8 => some 0x000000FFFFFFFFFF
  | 0x02#8 => some 0x00FFFFFF00000000
  | 0x03#8 => some 0x00FFFFFFFFFFFFFF
  | 0x10#8 => some 0x000000FEFFFFFFFF
  | 0x11#8 => some 0x000000FFFFFFFFFF
  | 0x12#8 => some 0x00000000FFFFFFFF
  | 0x13#8 => some 0x000000FEFFFF0000
  | 0x14#8 => some 0x0000000000FFFFFF
  | 0x15#8 => some 0x00FFFFFFFFFFFFFF
  | 0x20#8 => some 0x00FFFFFFFFFFFFFF
  | _ => none

/-! ## Requests (42_bus_protocol.md, 43_session.md) -/

/-- The requests of a list of transactions, in order. -/
def requests (tr : List Transaction) : List Request := tr.map (·.request)

/-- The command frame of byte `b` to device `dev` (30_encoding.md R92). -/
def commandFrame (s : State) (dev : Word32) (b : Byte) : Request :=
  .transmit dev [0x00, b] ⟨s.params.tBus, s.params.timeUnit⟩

/-- The data frame that carries the whole framebuffer (30_encoding.md R93, 20_memory.md R61). -/
def dataFrame (s : State) : Request :=
  .transmit s.devId (0x40 :: (List.range 1024).map (memRead s.fb)) ⟨s.params.tBus, s.params.timeUnit⟩

/-- The six address-window bytes (42_bus_protocol.md R180, R181). -/
def window (s : State) : List Byte := [s.params.ssdColAddr, 0x00, 0x7F, s.params.ssdPageAddr, 0x00, 0x07]

/-- The seven frames of UPDATE_SCREEN, in order (42_bus_protocol.md R180). -/
def screenFrames (s : State) : List Request := (window s).map (commandFrame s s.devId) ++ [dataFrame s]

/-- The 26 frames of the initialisation sequence to device `dev`, in order (42_bus_protocol.md R178). -/
def initFrames (s : State) (dev : Word32) : List Request := s.initSeq.toList.map (commandFrame s dev)

/-- A successful request with `STATUS` as it reads in state `u`. -/
def okIn (u : State) (r : Request) : Transaction := ⟨r, .ok, statusWord u⟩

/-- A failed request with `STATUS` as it reads in state `u`. -/
def failIn (u : State) (r : Request) (e : Word32) : Transaction := ⟨r, .fail e, statusWord u⟩

/-- A request with whatever the transport answered, with `STATUS` as it reads in state `u`. -/
def answeredIn (u : State) (r : Request) (a : Config.Reply) : Transaction :=
  ⟨r, match a with | .ok _ => .ok | .fail e => .fail e, statusWord u⟩

/-- The next data-frame assembly succeeds by what stands in State: it cannot fail, or the next draw says
so (42_bus_protocol.md R172). -/
def assemblyOk (s : State) : Bool := !s.params.allocMayFail || s.allocs.head? == some true

/-- The draws that are left after a data-frame assembly. -/
def allocsAfter (s : State) : List Bool := if s.params.allocMayFail then s.allocs.tail else s.allocs

/-- A request is a frame to the panel. -/
def isTransmit : Request → Bool
  | .transmit _ _ _ => true
  | .busCreate _ _ | .devAdd _ _ _ | .devRemove _ | .busDelete _ => false

/-- How an initialisation that requested `n` of the 26 frames ends in `t`: OK after all of them, and otherwise
with the byte and the step of the last frame requested (42_bus_protocol.md R178, R179). -/
def endsAtFrame (s : State) (n : Nat) (t : State) : Prop :=
  1 ≤ n ∧ n ≤ 26 ∧ (t.kind = .ok → n = 26) ∧
    (t.kind ≠ .ok → t.kind = .busTransactionFailed ∧ t.errSrc = .commandFrame ∧
      t.errStep = BitVec.ofNat 5 (n - 1) ∧ some t.errByte = s.initSeq.toList[n - 1]?)

/-- How DEINIT of an owning session ends, from the answers to its two releases (43_session.md R214, R221). -/
def deinitEnded (r1 r2 : Config.Reply) (s : State) : State :=
  match r1, r2 with
  | .fail e, _ => endedResource .devRemove e s
  | .ok _, .fail e => endedResource .busDelete e s
  | .ok _, .ok _ => endedPlain .ok s

/-- The detail fields that go with a completion code (60_exceptions.md R241). -/
def detailFits (s : State) : Prop :=
  match s.kind with
  | .ok | .notInitialized | .invalidArgument | .illegalCommand =>
    s.errSrc = .none ∧ s.errByte = 0 ∧ s.errStep = 0 ∧ s.terr = 0
  | .outOfMemory => s.errSrc = .dataFrame ∧ s.errByte = 0 ∧ s.terr = 0
  | .busTransactionFailed =>
    match s.errSrc with
    | .none => False
    | .commandFrame => True
    | .dataFrame => s.errByte = 0
    | .busCreate | .devAdd | .devRemove | .busDelete => s.errByte = 0 ∧ s.errStep = 0

/-! ## Resources (43_session.md R210, R212, R219, R220) -/

/-- Handles of the buses that were created, in order. -/
def busesCreated : List Transaction → List Word32
  | [] => []
  | ⟨.busCreate _ _, .handle h, _⟩ :: tr => h :: busesCreated tr
  | _ :: tr => busesCreated tr

/-- Handles of the buses whose deletion was requested, in order. -/
def busesDeleted : List Transaction → List Word32
  | [] => []
  | ⟨.busDelete h, _, _⟩ :: tr => h :: busesDeleted tr
  | _ :: tr => busesDeleted tr

/-- Handles of the devices that were attached, in order. -/
def devicesAttached : List Transaction → List Word32
  | [] => []
  | ⟨.devAdd _ _ _, .handle h, _⟩ :: tr => h :: devicesAttached tr
  | _ :: tr => devicesAttached tr

/-- Handles of the devices whose removal was requested, in order. -/
def devicesRemoved : List Transaction → List Word32
  | [] => []
  | ⟨.devRemove h, _, _⟩ :: tr => h :: devicesRemoved tr
  | _ :: tr => devicesRemoved tr

/-- The bus a session has to release: that of an owning READY session. -/
def ownedBus (s : State) : List Word32 := if s.session = .ready ∧ s.owns = true then [s.busId] else []

/-- The device a session has to release: that of an owning READY session. -/
def ownedDevice (s : State) : List Word32 := if s.session = .ready ∧ s.owns = true then [s.devId] else []

/-! ## Text (41_framebuffer.md R129, consequences (a) to (c)) -/

/-- How many characters a walk from column `x` puts on one page: at `x, x+6, ...` up to 122, and one where
`x >= 123`. -/
def charsPerPage (x : Nat) : Nat := if x ≤ 122 then (122 - x) / 6 + 1 else 1

/-- Column of character `j` of a text that starts at column `x`. -/
def textColumn (x j : Nat) : Nat := x + 6 * (j % charsPerPage x)

/-- Page of character `j` of a text that starts at `(x, pg)`: where `x >= 123` every character wraps. -/
def textPage (x pg j : Nat) : Nat := if x ≤ 122 then pg + j / charsPerPage x else pg + 1 + j

/-- The framebuffer after a text: each character whose page is on the screen is drawn at its place, in order. -/
def textMem (rom : Vector Config.Glyph 95) (x pg : Nat) (str : List Byte) (m : Memory) : Memory :=
  str.zipIdx.foldl (fun m cj =>
    if textPage x pg cj.2 < 8 then glyphMem rom m cj.1 (textColumn x cj.2) (textPage x pg cj.2) else m) m

/-- The diagnostic records of a text: those of the characters before the first wrap, where the starting
page is off the screen. -/
def textDiag (x pg : Nat) (str : List Byte) : List Diag :=
  if x ≤ 122 ∧ 8 ≤ pg then (str.zipIdx.take (charsPerPage x)).map fun cj => ⟨cj.1, textColumn x cj.2, pg⟩ else []

/-! ## Unobservable framebuffer (10_state.md R42, 93_implementation_defined.md U1) -/

/-- Two states are the same but for a framebuffer that no command can read: their framebuffers may differ
only outside READY. -/
def SameButUnreadFb (a b : State) : Prop := a = { b with fb := a.fb } ∧ (b.session = .ready → a.fb = b.fb)

/-- Two outcomes of a step agree: two next states related by `R`, the same fault, or the same refusal. -/
def outcomesAgree (R : State → State → Prop) :
    Host.Outcome State Fault Refusal → Host.Outcome State Fault Refusal → Prop
  | .next a, .next b => R a b
  | .fault f, .fault g => f = g
  | .refused p, .refused q => p = q
  | _, _ => False

end Sys2Proof.Safety
end

