-- ==== Sys2Proof/Certificates/Slice0/Obligations.lean ====
section
/-! DEFINITION. The statements for the provers, each with the rules of spec/ it comes from. `ended`,
`endedPlain`, `endedCommandFrame` and `endedResource` (Safety.lean) rewrite the completion fields, `SEQ` and
`BUSY`, and no other field, so a conclusion `exec i s = .next (ended … { s with … })` names EVERY field the
command changes: it is a result, a completion and a frame in one. Memory is compared byte by byte through
`memRead`. -/

open Sys2Proof Sys2Proof.Machine Sys2Proof.Safety

/-! ## Encoding and decoding -/

/-- Words written out from the spec's tables decode to the commands they stand for (30_encoding.md R81,
R84, R90; the words are those of 95_test_vectors.md). -/
def Obligations.SpelledWordsDecode : Prop :=
  decodeWord 0x0116150000000000 [] = .ok (.initOwning 22 21) ∧
  decodeWord 0x0200000000001234 [] = .ok (.initBorrowing 0x1234) ∧
  decodeWord 0x0300000000000000 [] = .ok .deinit ∧
  decodeWord 0x10050A0100000000 [] = .ok (.setPixel 5 10 true) ∧
  decodeWord 0x117F3F0000000000 [] = .ok (.getPixel 127 63) ∧
  decodeWord 0x120A02C800000000 [] = .ok (.drawChar 200 10 2) ∧
  decodeWord 0x1378000100000002 [0x41, 0x42] = .ok (.drawText 120 0 true [0x41, 0x42]) ∧
  decodeWord 0x1478070901000000 [] = .ok (.clearArea 120 7 9 1) ∧
  decodeWord 0x1500000000000000 [] = .ok .clearDisplay ∧
  decodeWord 0x2000000000000000 [] = .ok .updateScreen

/-- Decoding the bytes of a well-formed instruction gives it back, with every operand, and leaves exactly
the bytes after it (30_encoding.md R82, R85, R88, 20_memory.md R62). -/
def Obligations.DecodeOfEncodeIsTheInstruction : Prop :=
  ∀ (i : Instr) (rest : List Byte), i.wf = true → decodeBytes (encodeBytes i ++ rest) = .ok (i, rest)

/-- A word that decodes is the encoding of what it decodes to: no two words mean one instruction, and no
reserved bit is dropped (30_encoding.md R85). -/
def Obligations.LegalWordIsTheEncodingOfItsInstruction : Prop :=
  ∀ (w : Word) (p : List Byte) (i : Instr), p.length = payloadLength w → decodeWord w p = .ok i →
    i.wf = true ∧ encodeWord i = w ∧ i.payload = p

/-- A word with a defined opcode and a nonzero reserved bit completes with IllegalCommand, writes only the
completion fields, makes no request, and takes its payload from the port (30_encoding.md R86). -/
def Obligations.ReservedBitCompletesIllegalCommand : Prop :=
  ∀ (s : State) (w m : Word) (p rest : List Byte) (ms : List HostMove),
    s.busy = false → s.host = .send (bytesOfWord w ++ p ++ rest) :: ms → p.length = payloadLength w →
    reservedBits (opcodeOf w) = some m → w &&& m ≠ 0 →
    step s = .next (endedPlain .illegalCommand { s with host := restMoves rest ms, cmd := w })

/-- A word with an undefined opcode completes with IllegalCommand in the same way, and has no payload
(30_encoding.md R87). -/
def Obligations.UndefinedOpcodeCompletesIllegalCommand : Prop :=
  ∀ (s : State) (w : Word) (rest : List Byte) (ms : List HostMove),
    s.busy = false → s.host = .send (bytesOfWord w ++ rest) :: ms → reservedBits (opcodeOf w) = none →
    step s = .next (endedPlain .illegalCommand { s with host := restMoves rest ms, cmd := w })

/-- A step runs the decoded instruction: where the bytes on the port hold a command that decodes to `i`,
the step is `exec i`, with the command taken from the port, its word in `CMD` and `BUSY` set
(10_state.md R30, R39). -/
def Obligations.StepRunsTheDecodedInstruction : Prop :=
  ∀ (s : State) (bs : List Byte) (ms : List HostMove) (c : Fetched) (i : Instr),
    s.busy = false → s.host = .send bs :: ms → fetchCommand bs = some c → decodeWord c.word c.payload = .ok i →
    step s = exec i { s with host := restMoves c.rest ms, cmd := c.word, busy := true }

/-- Every command takes its word and all its payload from the port before it completes, whatever its
completion code, and completes: the next command starts at the next byte (30_encoding.md R88, R89,
10_state.md R30). -/
def Obligations.EveryCommandTakesItsPayloadAndCompletes : Prop :=
  ∀ (s : State) (w : Word) (p rest : List Byte) (ms : List HostMove),
    s.busy = false → s.host = .send (bytesOfWord w ++ p ++ rest) :: ms → p.length = payloadLength w →
    ∃ t, step s = .next t ∧ t.host = restMoves rest ms ∧ t.cmd = w ∧ t.busy = false

/-- The two broken duties of the host stop the machine by name (60_exceptions.md R267,
93_implementation_defined.md U16; the fault is the model's form of `stuck`, log 12). -/
def Obligations.BrokenHostDutyStops : Prop :=
  ∀ (s : State) (b : Byte) (bs : List Byte) (ms : List HostMove), s.host = .send (b :: bs) :: ms →
    (s.busy = true → step s = .fault .commandWhileBusy) ∧
    (s.busy = false → fetchCommand (b :: bs) = none → step s = .fault .commandIncomplete)

/-- A host write to STATUS or TERR changes nothing (10_state.md R40). The last clause, that with no move left
the controller waits in any state, is no rule of the spec: it is the model's deduction, DEDUCED (log 14), from
70_reset_and_hazards.md R272, which speaks of the time after reset. -/
def Obligations.RegisterWritesHaveNoEffect : Prop :=
  ∀ (s : State) (ms : List HostMove) (v : Word32),
    (s.host = .writeStatus v :: ms → step s = .next { s with host := ms }) ∧
    (s.host = .writeTerr v :: ms → step s = .next { s with host := ms }) ∧
    (s.host = [] → step s = .next s)

/-! ## The framebuffer commands -/

/-- The decoder is a bijection between in-range pixels and (byte, bit) pairs (20_memory.md R51, R53). -/
def Obligations.PixelDecoderIsABijection : Prop :=
  (∀ x y, x < 128 → y < 64 →
    pixelIndex x y = x + y / 8 * 128 ∧ pixelBit y = y % 8 ∧ pixelIndex x y < 1024 ∧ pixelBit y < 8 ∧
    indexColumn (pixelIndex x y) = x ∧ indexRow (pixelIndex x y) (pixelBit y) = y) ∧
  (∀ i b, i < 1024 → b < 8 →
    indexColumn i = i % 128 ∧ indexPage i = i / 128 ∧ indexColumn i < 128 ∧ indexRow i b < 64 ∧
    pixelIndex (indexColumn i) (indexRow i b) = i ∧ pixelBit (indexRow i b) = b)

/-- SET_PIXEL in a READY session: an in-range pixel's bit takes the value `on`; every other bit of every
byte, and everything where the pixel is out of range, stays (41_framebuffer.md R122, R123). -/
def Obligations.SetPixelChangesExactlyOneBit : Prop :=
  ∀ (s : State) (x y : Byte) (on : Bool), s.session = .ready → s.fb.wf = true →
    ∃ m, exec (.setPixel x y on) s = .next (endedPlain .ok { s with fb := m }) ∧
      ∀ a b, (memRead m a).getLsbD b =
        if x.toNat < 128 ∧ y.toNat < 64 ∧ a = pixelIndex x.toNat y.toNat ∧ b = pixelBit y.toNat then on
        else (memRead s.fb a).getLsbD b

/-- GET_PIXEL in a READY session: the pixel in RESULT, or InvalidArgument with nothing else changed
(41_framebuffer.md R124). -/
def Obligations.GetPixelReadsThePixel : Prop :=
  ∀ (s : State) (x y : Byte), s.session = .ready →
    (x.toNat < 128 → y.toNat < 64 → exec (.getPixel x y) s = .next (endedPlain .ok
      { s with result := (memRead s.fb (x.toNat + y.toNat / 8 * 128)).getLsbD (y.toNat % 8) })) ∧
    (128 ≤ x.toNat ∨ 64 ≤ y.toNat → exec (.getPixel x y) s = .next (endedPlain .invalidArgument s))

/-- A pixel that was set reads back as it was set (41_framebuffer.md R135, law 1). -/
def Obligations.SetPixelThenGetPixel : Prop :=
  ∀ (s : State) (x y : Byte) (on : Bool), s.session = .ready → s.fb.wf = true → x.toNat < 128 → y.toNat < 64 →
    ∃ t u, exec (.setPixel x y on) s = .next t ∧ exec (.getPixel x y) t = .next u ∧
      u.kind = .ok ∧ u.result = on ∧ u.fb = t.fb

/-- DRAW_CHAR on a page of the screen: column `k` of the glyph replaces the byte it lands in, columns past
the right edge are dropped, and every other byte stays (41_framebuffer.md R125, R127, R134). -/
def Obligations.DrawCharWritesTheGlyphClipped : Prop :=
  ∀ (s : State) (c x pg : Byte), s.session = .ready → s.fb.wf = true → pg.toNat < 8 →
    ∃ m, exec (.drawChar c x pg) s = .next (endedPlain .ok { s with fb := m }) ∧
      ∀ a,
        (∀ k : Fin 5, x.toNat + k.val < 128 → a = columnIndex (x.toNat + k.val) pg.toNat →
          memRead m a = (s.glyphRom.get (glyphIndex c)).get k) ∧
        ((∀ k : Fin 5, x.toNat + k.val < 128 → a ≠ columnIndex (x.toNat + k.val) pg.toNat) →
          memRead m a = memRead s.fb a)

/-- DRAW_CHAR on a page off the screen: one diagnostic record, with the character before substitution, and
nothing else (41_framebuffer.md R127, 60_exceptions.md R265). -/
def Obligations.DrawCharOffScreenOnlyDiagnoses : Prop :=
  ∀ (s : State) (c x pg : Byte), s.session = .ready → 8 ≤ pg.toNat →
    exec (.drawChar c x pg) s = .next (endedPlain .ok { s with diag := s.diag ++ [⟨c, x.toNat, pg.toNat⟩] })

/-- Glyph ROM addressing: entry `c - 32` for codes 32..126, and the question mark's entry, 31, for every
other code; byte `k` of an entry is its element `k` (20_memory.md R56). -/
def Obligations.GlyphIndexSubstitutes : Prop :=
  ∀ (c : Byte), (32 ≤ c.toNat → c.toNat ≤ 126 → (glyphIndex c).val = c.toNat - 32) ∧
    (c.toNat < 32 ∨ 126 < c.toNat → (glyphIndex c).val = 31 ∧ glyphIndex c = glyphIndex 0x3F) ∧
    (∀ (rom : Vector Config.Glyph 95) (g : Fin 95) (k : Fin 5), glyphRead rom g k = (rom.get g).get k)

/-- A character outside 32..126 leaves the framebuffer exactly as the question mark does, at every position
(41_framebuffer.md R126). -/
def Obligations.SubstitutedCharacterDrawsTheQuestionMark : Prop :=
  ∀ (s : State) (c : Byte) (x p : Nat), c.toNat < 32 ∨ 126 < c.toNat →
    (drawGlyph c x p s).fb = (drawGlyph 0x3F x p s).fb

/-- DRAW_TEXT with a valid string: every character is drawn at the place the spec's consequences (a) to (c)
give it, in order, as far as its page is on the screen; the records are those of the first line where the
page is off the screen; nothing else changes but the two layout registers (41_framebuffer.md R128 to R130). -/
def Obligations.DrawTextPlacesEveryCharacter : Prop :=
  ∀ (s : State) (x pg : Byte) (p : List Byte), s.session = .ready → p.length ≤ s.params.textMax →
    ∃ cx cy, exec (.drawText x pg true p) s = .next (endedPlain .ok
      { s with
        fb := textMem s.glyphRom x.toNat pg.toNat (p.takeWhile (· ≠ 0)) s.fb
        diag := s.diag ++ textDiag x.toNat pg.toNat (p.takeWhile (· ≠ 0))
        curX := cx, curY := cy })

/-- DRAW_TEXT without a string, or with one longer than TEXT_MAX: InvalidArgument and nothing else
(41_framebuffer.md R131). -/
def Obligations.DrawTextRejectsMalformedText : Prop :=
  ∀ (s : State) (x pg : Byte) (sp : Bool) (p : List Byte), s.session = .ready →
    sp = false ∨ s.params.textMax < p.length →
    exec (.drawText x pg sp p) s = .next (endedPlain .invalidArgument s)

/-- CLEAR_AREA: an accepted rectangle zeroes exactly its bytes, and a rejected one changes nothing
(41_framebuffer.md R132, R135 law 3). -/
def Obligations.ClearAreaZeroesExactlyTheRectangle : Prop :=
  ∀ (s : State) (x pg wd ht : Byte), s.session = .ready →
    (0 < wd.toNat ∧ 0 < ht.toNat ∧ x.toNat + wd.toNat ≤ 128 ∧ pg.toNat + ht.toNat ≤ 8 → s.fb.wf = true →
      ∃ m, exec (.clearArea x pg wd ht) s = .next (endedPlain .ok { s with fb := m }) ∧
        ∀ a, memRead m a =
          if x.toNat ≤ a % 128 ∧ a % 128 < x.toNat + wd.toNat ∧ pg.toNat ≤ a / 128 ∧ a / 128 < pg.toNat + ht.toNat
          then 0 else memRead s.fb a) ∧
    (¬ (0 < wd.toNat ∧ 0 < ht.toNat ∧ x.toNat + wd.toNat ≤ 128 ∧ pg.toNat + ht.toNat ≤ 8) →
      exec (.clearArea x pg wd ht) s = .next (endedPlain .invalidArgument s))

/-- CLEAR_DISPLAY zeroes every byte and makes no request (41_framebuffer.md R133). -/
def Obligations.ClearDisplayZeroesEveryByte : Prop :=
  ∀ (s : State), s.session = .ready →
    ∃ m, exec .clearDisplay s = .next (endedPlain .ok { s with fb := m }) ∧ ∀ a, memRead m a = 0

/-- CLEAR_DISPLAY and CLEAR_AREA 0, 0, 128, 8 leave the same state (41_framebuffer.md R133). -/
def Obligations.ClearDisplayIsTheFullClearArea : Prop :=
  ∀ (s : State), s.fb.wf = true → ∃ t, exec .clearDisplay s = .next t ∧ exec (.clearArea 0 0 128 8) s = .next t

/-- Outside READY, every command but INIT_* completes NotInitialized and changes nothing else
(41_framebuffer.md R121, 42_bus_protocol.md R180, 43_session.md R214). -/
def Obligations.NotReadyCompletesNotInitialized : Prop :=
  ∀ (s : State) (i : Instr), s.session ≠ .ready → isInit i = false →
    exec i s = .next (endedPlain .notInitialized s)

/-- A framebuffer command makes no request, changes neither session, ownership nor handles, clears TERR, and
never raises OutOfMemory or BusTransactionFailed; of all the state it can change only FB, RESULT, the layout
registers, the diagnostic output and the completion fields (41_framebuffer.md R120). -/
def Obligations.FramebufferCommandsMakeNoRequest : Prop :=
  ∀ (s : State) (i : Instr), isFramebuffer i = true →
    ∃ t, exec i s = .next t ∧ t.terr = 0 ∧ t.kind ≠ .outOfMemory ∧ t.kind ≠ .busTransactionFailed ∧
      t = endedPlain t.kind
        { s with fb := t.fb, result := t.result, curX := t.curX, curY := t.curY, diag := t.diag }

/-- SET_PIXEL, DRAW_CHAR, CLEAR_AREA and CLEAR_DISPLAY are idempotent on the framebuffer
(41_framebuffer.md R135, law 6). -/
def Obligations.DrawingIsIdempotent : Prop :=
  ∀ (s : State) (i : Instr), s.fb.wf = true →
    (∃ x y on, i = .setPixel x y on) ∨ (∃ c x pg, i = .drawChar c x pg) ∨
      (∃ x pg wd ht, i = .clearArea x pg wd ht) ∨ i = .clearDisplay →
    ∃ t u, exec i s = .next t ∧ exec i t = .next u ∧ u.fb = t.fb

/-! ## UPDATE_SCREEN -/

/-- UPDATE_SCREEN with every answer `ok`: the seven frames in order, the last one carrying the 1024 bytes of
the framebuffer, and OK (42_bus_protocol.md R180 to R182). -/
def Obligations.UpdateScreenSendsTheWholeFramebuffer : Prop :=
  ∀ (s : State) (hs : List Config.Handle) (rest : List Config.Reply), s.session = .ready → hs.length = 7 →
    s.replies = hs.map .ok ++ rest → assemblyOk s = true →
    exec .updateScreen s = .next (endedPlain .ok
      { s with
        panelWinKnown := true, replies := rest, allocs := allocsAfter s
        trace := s.trace ++ (screenFrames s).map (okIn s) })

/-- UPDATE_SCREEN whose command frame `k` fails: the frames up to it, and its byte, step and error in the
detail fields (42_bus_protocol.md R183, R186). -/
def Obligations.UpdateScreenReportsTheFailingCommandFrame : Prop :=
  ∀ (s : State) (k : Nat) (b : Byte) (hs : List Config.Handle) (e : Word32) (rest : List Config.Reply),
    s.session = .ready → hs.length = k → (window s)[k]? = some b → s.replies = hs.map .ok ++ .fail e :: rest →
    exec .updateScreen s = .next (endedCommandFrame b (BitVec.ofNat 5 k) e
      { s with
        panelWinKnown := false, replies := rest
        trace := s.trace ++ ((screenFrames s).take k).map (okIn s) ++ [failIn s (commandFrame s s.devId b) e] })

/-- UPDATE_SCREEN whose data frame cannot be assembled, or is not transmitted: six or seven frames, and the
detail of R186 (42_bus_protocol.md R171, R172, R186). -/
def Obligations.UpdateScreenReportsTheFailingDataFrame : Prop :=
  ∀ (s : State) (hs : List Config.Handle) (rest : List Config.Reply), s.session = .ready → hs.length = 6 →
    (∀ as, s.params.allocMayFail = true → s.allocs = false :: as → s.replies = hs.map .ok ++ rest →
      exec .updateScreen s = .next (ended .outOfMemory .dataFrame 0 6 0
        { s with
          panelWinKnown := false, replies := rest, allocs := as
          trace := s.trace ++ ((screenFrames s).take 6).map (okIn s) })) ∧
    (∀ e, assemblyOk s = true → s.replies = hs.map .ok ++ .fail e :: rest →
      exec .updateScreen s = .next (ended .busTransactionFailed .dataFrame 0 6 e
        { s with
          panelWinKnown := false, replies := rest, allocs := allocsAfter s
          trace := s.trace ++ ((screenFrames s).take 6).map (okIn s) ++ [failIn s (dataFrame s) e] }))

/-- Whatever the transport answers, UPDATE_SCREEN requests a prefix of the seven frames, in order; it
completes OK only after all seven; and it fails only with OutOfMemory or BusTransactionFailed
(42_bus_protocol.md R173, R180, R183, 20_memory.md R64, R67). -/
def Obligations.UpdateScreenRequestsAPrefixOfItsFrames : Prop :=
  ∀ (s : State), s.session = .ready →
    ∃ t n, exec .updateScreen s = .next t ∧ 1 ≤ n ∧ n ≤ 7 ∧
      requests t.trace = requests s.trace ++ (screenFrames s).take n ∧
      (t.kind = .ok → n = 7) ∧ (t.kind = .outOfMemory → n = 6) ∧
      (t.kind = .ok ∨ t.kind = .outOfMemory ∨ t.kind = .busTransactionFailed)

/-- UPDATE_SCREEN never writes the framebuffer, the session, the ownership flag, the handles or RESULT,
whether it succeeds or fails: it changes only the completion fields, the ghost bit, the inputs it takes and
the trace (42_bus_protocol.md R184). -/
def Obligations.UpdateScreenChangesNoControllerState : Prop :=
  ∀ (s : State), ∃ t, exec .updateScreen s = .next t ∧
    t = ended t.kind t.errSrc t.errByte t.errStep t.terr
      { s with
        panelWinKnown := t.panelWinKnown, replies := t.replies, allocs := t.allocs, draws := t.draws
        trace := t.trace }

/-! ## The session commands -/

/-- INIT_BORROWING with every answer `ok`: the 26 frames to the given handle, a zero framebuffer, and a READY
session that owns nothing (43_session.md R213, 42_bus_protocol.md R178, R179). -/
def Obligations.InitBorrowingConfiguresThePanel : Prop :=
  ∀ (s : State) (h : Word32) (hs : List Config.Handle) (rest : List Config.Reply), s.session = .uninit → h ≠ 0 →
    hs.length = 26 → s.replies = hs.map .ok ++ rest →
    exec (.initBorrowing h) s = .next (endedPlain .ok
      { s with
        session := .ready, owns := false, devId := h, busId := 0, fb := [], panelWinKnown := false, replies := rest
        trace := s.trace ++ (initFrames s h).map (okIn { s with session := .configuring, owns := false }) })

/-- INIT_BORROWING whose frame `k` fails: no later frame, nothing released, and an uninitialised session
(43_session.md R213, R219, 42_bus_protocol.md R178). -/
def Obligations.InitBorrowingAbortsAtTheFailingFrame : Prop :=
  ∀ (s : State) (h : Word32) (k : Nat) (b : Byte) (hs : List Config.Handle) (e : Word32) (rest : List Config.Reply),
    s.session = .uninit → h ≠ 0 → hs.length = k → s.initSeq.toList[k]? = some b →
    s.replies = hs.map .ok ++ .fail e :: rest →
    exec (.initBorrowing h) s = .next (endedCommandFrame b (BitVec.ofNat 5 k) e
      { s with
        session := .uninit, owns := false, devId := 0, busId := 0, fb := [], panelWinKnown := false, replies := rest
        trace := s.trace ++ ((initFrames s h).take k).map (okIn { s with session := .configuring, owns := false })
          ++ [failIn { s with session := .configuring, owns := false } (commandFrame s h b) e] })

/-- INIT_BORROWING with an absent handle completes NotInitialized and changes nothing (43_session.md R213). -/
def Obligations.InitBorrowingRejectsAnAbsentHandle : Prop :=
  ∀ (s : State), s.session = .uninit → exec (.initBorrowing 0) s = .next (endedPlain .notInitialized s)

/-- INIT_OWNING with every answer `ok`: the bus, the device at 0x3C on it, the 26 frames, a zero framebuffer,
and a READY session that owns both (43_session.md R211, 70_reset_and_hazards.md R274). -/
def Obligations.InitOwningConfiguresThePanel : Prop :=
  ∀ (s : State) (scl sda : Byte) (bus dev : Config.Handle) (hs : List Config.Handle) (rest : List Config.Reply),
    s.session = .uninit → hs.length = 26 → s.replies = .ok bus :: .ok dev :: (hs.map .ok ++ rest) →
    exec (.initOwning scl sda) s = .next (endedPlain .ok
      { s with
        session := .ready, owns := true, devId := dev.val, busId := bus.val, fb := [], panelWinKnown := false
        replies := rest
        trace := s.trace ++
          [⟨.busCreate scl sda, .handle bus.val, statusWord { s with session := .configuring }⟩,
            ⟨.devAdd bus.val 0x3C s.params.busClkHz, .handle dev.val, statusWord { s with session := .configuring }⟩]
          ++ (initFrames s dev.val).map (okIn { s with session := .configuring, owns := true }) })

/-- INIT_OWNING that fails before the panel is configured: nothing is left but what was there, the bus being
released where it was created, and the framebuffer is not touched (43_session.md R211, R212). -/
def Obligations.InitOwningRollsBackTheBus : Prop :=
  ∀ (s : State) (scl sda : Byte) (e : Word32) (rest : List Config.Reply), s.session = .uninit →
    (s.replies = .fail e :: rest →
      exec (.initOwning scl sda) s = .next (endedResource .busCreate e
        { s with
          replies := rest
          trace := s.trace ++ [failIn { s with session := .configuring } (.busCreate scl sda) e] })) ∧
    (∀ (bus : Config.Handle) (r : Config.Reply), s.replies = .ok bus :: .fail e :: r :: rest →
      exec (.initOwning scl sda) s = .next (endedResource .devAdd e
        { s with
          busId := 0, replies := rest
          trace := s.trace ++
            [⟨.busCreate scl sda, .handle bus.val, statusWord { s with session := .configuring }⟩,
              failIn { s with session := .configuring } (.devAdd bus.val 0x3C s.params.busClkHz) e,
              answeredIn { s with session := .configuring } (.busDelete bus.val) r] }))

/-- INIT_OWNING whose frame `k` fails: the device is removed, then the bus deleted, whatever they answer, and
the first failure is the one reported (43_session.md R211, R212, 60_exceptions.md R249). -/
def Obligations.InitOwningRollsBackDeviceAndBus : Prop :=
  ∀ (s : State) (scl sda : Byte) (bus dev : Config.Handle) (k : Nat) (b : Byte) (hs : List Config.Handle) (e : Word32)
    (r1 r2 : Config.Reply) (rest : List Config.Reply),
    s.session = .uninit → hs.length = k → s.initSeq.toList[k]? = some b →
    s.replies = .ok bus :: .ok dev :: (hs.map .ok ++ .fail e :: r1 :: r2 :: rest) →
    exec (.initOwning scl sda) s = .next (endedCommandFrame b (BitVec.ofNat 5 k) e
      { s with
        session := .uninit, owns := false, devId := 0, busId := 0, fb := [], panelWinKnown := false, replies := rest
        trace := s.trace ++
          [⟨.busCreate scl sda, .handle bus.val, statusWord { s with session := .configuring }⟩,
            ⟨.devAdd bus.val 0x3C s.params.busClkHz, .handle dev.val, statusWord { s with session := .configuring }⟩]
          ++ ((initFrames s dev.val).take k).map (okIn { s with session := .configuring, owns := true })
          ++ [failIn { s with session := .configuring, owns := true } (commandFrame s dev.val b) e,
            answeredIn { s with session := .configuring, owns := true } (.devRemove dev.val) r1,
            answeredIn { s with session := .configuring, owns := true } (.busDelete bus.val) r2] })

/-- Whatever the transport answers, the frames of an INIT_* command are the first `n` of the 26, in order, and
all 26 where it completes OK. INIT_BORROWING makes no other request. INIT_OWNING requests BusCreate first, then
DevAdd on the bus that was created, then the frames to the device that was attached, and after a failure the
releases of what it created, newest first (42_bus_protocol.md R178, R179, 43_session.md R211 to R213). -/
def Obligations.InitFramesAreNeverReordered : Prop :=
  (∀ (s : State) (h : Word32), s.session = .uninit → h ≠ 0 →
    ∃ t n, exec (.initBorrowing h) s = .next t ∧
      requests t.trace = requests s.trace ++ (initFrames s h).take n ∧ endsAtFrame s n t) ∧
  (∀ (s : State) (scl sda : Byte), s.session = .uninit →
    ∃ t new, exec (.initOwning scl sda) s = .next t ∧ t.trace = s.trace ++ new ∧
      ((requests new = [.busCreate scl sda] ∧ t.kind = .busTransactionFailed ∧ t.errSrc = .busCreate) ∨
       (∃ bus, busesCreated new = [bus] ∧
          requests new = [.busCreate scl sda, .devAdd bus 0x3C s.params.busClkHz, .busDelete bus] ∧
          t.kind = .busTransactionFailed ∧ t.errSrc = .devAdd) ∨
       (∃ bus dev n, busesCreated new = [bus] ∧ devicesAttached new = [dev] ∧ endsAtFrame s n t ∧
          requests new = [.busCreate scl sda, .devAdd bus 0x3C s.params.busClkHz] ++ (initFrames s dev).take n ++
            (if t.kind = .ok then [] else [.devRemove dev, .busDelete bus]))))

/-- An INIT_* command in a READY session completes IllegalCommand and changes nothing (43_session.md R216). -/
def Obligations.InitInReadyIsIllegal : Prop :=
  ∀ (s : State) (i : Instr), s.session = .ready → isInit i = true →
    exec i s = .next (endedPlain .illegalCommand s)

/-- In CLOSED every command completes NotInitialized, or IllegalCommand for an illegal word, and changes
nothing; stated of a step (43_session.md R217). -/
def Obligations.ClosedIsTerminal : Prop :=
  ∀ (s : State) (b : Byte) (bs : List Byte) (ms : List HostMove) (c : Fetched), s.session = .closed → s.busy = false →
    s.host = .send (b :: bs) :: ms → fetchCommand (b :: bs) = some c →
    step s = .next (endedPlain
      (match decodeWord c.word c.payload with | .ok _ => .notInitialized | .error _ => .illegalCommand)
      { s with host := restMoves c.rest ms, cmd := c.word })

/-- DEINIT of an owning session: both releases, the session CLOSED, `OWNS` kept, and the first failing
release reported (43_session.md R214, R220, R221). -/
def Obligations.DeinitReleasesWhatItOwns : Prop :=
  ∀ (s : State) (r1 r2 : Config.Reply) (rest : List Config.Reply), s.session = .ready → s.owns = true →
    s.replies = r1 :: r2 :: rest →
    exec .deinit s = .next (deinitEnded r1 r2
      { s with
        session := .closed, devId := 0, busId := 0, replies := rest
        trace := s.trace ++ [answeredIn s (.devRemove s.devId) r1, answeredIn s (.busDelete s.busId) r2] })

/-- DEINIT of a borrowed session makes no request and closes the session (43_session.md R214, R219). -/
def Obligations.DeinitOfABorrowedSessionReleasesNothing : Prop :=
  ∀ (s : State), s.session = .ready → s.owns = false →
    exec .deinit s = .next (endedPlain .ok { s with session := .closed, devId := 0, busId := 0 })

/-- An owning teardown always issues DevRemove and then BusDelete, each exactly once, whatever the answers
(43_session.md R220). -/
def Obligations.OwningTeardownAlwaysReleasesBoth : Prop :=
  ∀ (s : State), s.session = .ready → s.owns = true →
    ∃ t, exec .deinit s = .next t ∧ t.session = .closed ∧ t.owns = true ∧
      requests t.trace = requests s.trace ++ [.devRemove s.devId, .busDelete s.busId]

/-! ## Rules over all commands -/

/-- The session state after every command (43_session.md R215). -/
def Obligations.SessionFollowsItsTransitions : Prop :=
  ∀ (s : State) (i : Instr), s.session ≠ .configuring →
    ∃ t, exec i s = .next t ∧ t.session = sessionAfter s.session i t.kind

/-- Every command ends with one of the codes its row allows, idle, and with the detail fields of its code
(60_exceptions.md R241, R246, R248, 10_state.md R30). -/
def Obligations.EveryCommandEndsWithAnAllowedCode : Prop :=
  ∀ (s : State) (i : Instr), ∃ t, exec i s = .next t ∧ t.kind ∈ possibleKinds i ∧ detailFits t ∧
    t.busy = false ∧ t.seq = 0

/-- A command that fails with NotInitialized, InvalidArgument or IllegalCommand changes nothing but the
completion fields (60_exceptions.md R244). -/
def Obligations.RefusedCommandChangesNothing : Prop :=
  ∀ (s : State) (i : Instr), ∃ t, exec i s = .next t ∧
    (t.kind = .notInitialized ∨ t.kind = .invalidArgument ∨ t.kind = .illegalCommand → t = endedPlain t.kind s)

/-- A failed INIT_* from UNINIT leaves an uninitialised session without handles, a zero framebuffer where it
reached the zeroing, which is where it requested a frame, and otherwise the framebuffer as it was
(60_exceptions.md R244, 43_session.md R211 to R213). -/
def Obligations.FailedInitLeavesNothingBehind : Prop :=
  ∀ (s : State) (i : Instr), s.session = .uninit → s.devId = 0 → s.busId = 0 → s.owns = false → isInit i = true →
    ∃ t new, exec i s = .next t ∧ t.trace = s.trace ++ new ∧
      (t.kind ≠ .ok → t.session = .uninit ∧ t.devId = 0 ∧ t.busId = 0 ∧ t.owns = false ∧
        t.fb = if (requests new).any isTransmit then [] else s.fb)

/-- RESULT is written only by a GET_PIXEL that completes OK, with the pixel read (10_state.md R33). -/
def Obligations.ResultIsWrittenOnlyByGetPixel : Prop :=
  ∀ (s : State) (i : Instr), ∃ t, exec i s = .next t ∧
    match i with
    | .getPixel x y =>
      t.result = if t.kind = .ok then (memRead s.fb (pixelIndex x.toNat y.toNat)).getLsbD (pixelBit y.toNat) else s.result
    | _ => t.result = s.result

/-- The ownership flag is written only by INIT_* (43_session.md R218). -/
def Obligations.OwnershipIsSetOnlyByInit : Prop :=
  ∀ (s : State) (i : Instr), isInit i = false → ∃ t, exec i s = .next t ∧ t.owns = s.owns

/-- While a command makes requests it is busy, and STATUS shows CONFIGURING during an INIT_* and READY during
the others, at every request (10_state.md R24, R30, R31). -/
def Obligations.StatusIsLiveAtEveryRequest : Prop :=
  ∀ (s : State) (i : Instr), s.busy = true →
    ∃ t new, exec i s = .next t ∧ t.trace = s.trace ++ new ∧
      ∀ x ∈ new, x.status.getLsbD 3 = true ∧ x.status.extractLsb' 4 2 = (if isInit i then 1#2 else 2#2)

/-- No bus and no device is leaked or released twice by a command: what a command created, with what the session
owned before, is what it released, with what the session owns after (43_session.md R212, R219, R220). Block
reset is no command: it forgets owned handles without releasing them (70_reset_and_hazards.md R271). -/
def Obligations.ResourcesAreReleasedExactlyOnce : Prop :=
  ∀ (s : State) (i : Instr), ∃ t new, exec i s = .next t ∧ t.trace = s.trace ++ new ∧
    busesCreated new ++ ownedBus s = busesDeleted new ++ ownedBus t ∧
    devicesAttached new ++ ownedDevice s = devicesRemoved new ++ ownedDevice t

/-- A command makes at most 30 requests (70_reset_and_hazards.md R282). -/
def Obligations.AtMostThirtyRequests : Prop :=
  ∀ (s : State) (i : Instr), ∃ t new, exec i s = .next t ∧ t.trace = s.trace ++ new ∧ new.length ≤ 30

/-- The ghost PANEL_WIN_KNOWN: 1 after an UPDATE_SCREEN that completes OK, 0 after one that fails and after
every INIT_* that transmitted a frame, unchanged otherwise (10_state.md R38). -/
def Obligations.PanelWindowIsKnownAfterAnUpdate : Prop :=
  ∀ (s : State) (i : Instr), ∃ t new, exec i s = .next t ∧ t.trace = s.trace ++ new ∧
    t.panelWinKnown =
      if i = .updateScreen ∧ s.session = .ready then t.kind == .ok
      else if isInit i && (requests new).any isTransmit then false else s.panelWinKnown

/-- STATUS has the layout of R28, its two mirrors are live, and its codes are those of R24, R34 and R240
(10_state.md R24, R28, R31, R32, R34, 60_exceptions.md R240). -/
def Obligations.StatusHasItsLayout : Prop :=
  (∀ (s : State),
    (statusWord s).extractLsb' 0 3 = s.kind.code ∧ (statusWord s).getLsbD 3 = s.busy ∧
    (statusWord s).extractLsb' 4 2 = s.session.code ∧ (statusWord s).getLsbD 6 = s.owns ∧
    (statusWord s).getLsbD 7 = s.result ∧ (statusWord s).extractLsb' 8 8 = s.errByte ∧
    (statusWord s).extractLsb' 16 5 = s.errStep ∧ (statusWord s).extractLsb' 21 3 = s.errSrc.code ∧
    (statusWord s).extractLsb' 24 8 = 0) ∧
  ([Session.uninit, .configuring, .ready, .closed].map Session.code = [0, 1, 2, 3]) ∧
  ([Kind.ok, .notInitialized, .invalidArgument, .outOfMemory, .busTransactionFailed, .illegalCommand].map Kind.code
    = [0, 1, 2, 3, 4, 5]) ∧
  ([ErrSrc.none, .commandFrame, .dataFrame, .busCreate, .devAdd, .devRemove, .busDelete].map ErrSrc.code
    = [0, 1, 2, 3, 4, 5, 6])

/-! ## Every step, and reset -/

/-- No step writes the two read-only memories or the parameters (10_state.md R22, R23, 20_memory.md R68; that
the parameters stand in State is the model's form, log 9). -/
def Obligations.RomsAndParametersAreConstant : Prop :=
  ∀ (s t : State), step s = .next t → t.glyphRom = s.glyphRom ∧ t.initSeq = s.initSeq ∧ t.params = s.params

/-- What holds between commands is kept by every step (10_state.md R41, 20_memory.md R55). -/
def Obligations.StepKeepsTheInvariant : Prop :=
  ∀ (s t : State), Inv s → step s = .next t → Inv t

/-- What holds between commands holds after reset (10_state.md R41, R42). -/
def Obligations.ResetMeetsTheInvariant : Prop := Inv State.reset

/-- The values the spec gives for reset (10_state.md R42, 00_scope.md R8, R9, 42_bus_protocol.md R177, 10_state.md
R22). The framebuffer, CMD and the layout registers are not named here: the spec gives them no value. That the
parameters T_BUS and ALLOC_MAY_FAIL stand in State is the model's form (log 9), and the command bytes of INIT_SEQ
are presumed, as the spec marks them (log 11). -/
def Obligations.ResetHasTheValuesOfTheSpec : Prop :=
  State.reset.session = .uninit ∧ State.reset.owns = false ∧ State.reset.devId = 0 ∧ State.reset.busId = 0 ∧
  State.reset.seq = 0 ∧ State.reset.kind = .ok ∧ State.reset.busy = false ∧ State.reset.result = false ∧
  State.reset.errByte = 0 ∧ State.reset.errStep = 0 ∧ State.reset.errSrc = .none ∧ State.reset.terr = 0 ∧
  State.reset.panelWinKnown = false ∧ statusWord State.reset = 0 ∧ State.reset.params.tBus = 100 ∧
  State.reset.params.allocMayFail = true ∧ State.reset.initSeq = Config.initSeqTable ∧
  State.reset.glyphRom.get 33 = Config.glyphA

/-- Block reset, even of a busy controller: every field the spec gives a reset value has it, no request is
made, and the constants stay (70_reset_and_hazards.md R270, R271). That the moves still to come with the bytes on
the port, the answers, the diagnostic output and the parameters stay is no rule of the spec: it is the model's
deduction, DEDUCED (log 22). -/
def Obligations.BlockResetMakesNoRequest : Prop :=
  ∀ (s : State) (ms : List HostMove), s.host = .blockReset :: ms →
    ∃ t, step s = .next t ∧ t.session = .uninit ∧ t.owns = false ∧ t.devId = 0 ∧ t.busId = 0 ∧ t.seq = 0 ∧
      statusWord t = 0 ∧ t.terr = 0 ∧ t.panelWinKnown = false ∧ t.fb.wf = true ∧
      t.trace = s.trace ∧ t.diag = s.diag ∧ t.host = ms ∧ t.replies = s.replies ∧
      t.glyphRom = s.glyphRom ∧ t.initSeq = s.initSeq ∧ t.params = s.params

/-- Block reset while a command is busy abandons it: its requests end with the `k`-th, and the state is that of
block reset (70_reset_and_hazards.md R271; where in the command reset lands is an input of the model, log 13).
Where the command's bytes have not all arrived, the step is that of block reset: no request of the command was
made, and the bytes that had arrived are lost (the model's choice, log 13). -/
def Obligations.ResetAbandonsABusyCommand : Prop :=
  ∀ (s : State) (bytes : List Byte) (k : Nat) (ms : List HostMove), s.host = .sendThenReset bytes k :: ms →
    (∀ u, bytes ≠ [] → step { s with host := .send bytes :: ms } = .next u →
      ∃ t new, step s = .next t ∧ u.trace = s.trace ++ new ∧ t.trace = s.trace ++ new.take k ∧
        t.session = .uninit ∧ t.owns = false ∧ t.devId = 0 ∧ t.busId = 0 ∧ t.seq = 0 ∧ statusWord t = 0 ∧
        t.terr = 0 ∧ t.panelWinKnown = false ∧ t.host = u.host) ∧
    (s.busy = false → fetchCommand bytes = none → step s = step { s with host := .blockReset :: ms })

/-- No command can tell what the framebuffer holds before an INIT_* zeroes it: two states that differ only
in a framebuffer outside READY step to states that differ so, or not at all. The model's choice of 0x00 after
reset (log 5) is therefore not observable (10_state.md R42, 93_implementation_defined.md U1). -/
def Obligations.ResetFramebufferIsUnobservable : Prop :=
  ∀ (a b : State), SameButUnreadFb a b → outcomesAgree SameButUnreadFb (step a) (step b)
end

