-- ==== Sys2Proof/Laws/State.lean ====
section
/-! SUPPORT. What each named update leaves in each field of State: one lemma per field per update. -/

namespace Sys2Proof.Machine

/-! ### finish -/

@[simp] theorem finish_fb (c : Completion) (s : State) : (finish c s).fb = s.fb := rfl
@[simp] theorem finish_glyphRom (c : Completion) (s : State) : (finish c s).glyphRom = s.glyphRom := rfl
@[simp] theorem finish_initSeq (c : Completion) (s : State) : (finish c s).initSeq = s.initSeq := rfl
@[simp] theorem finish_session (c : Completion) (s : State) : (finish c s).session = s.session := rfl
@[simp] theorem finish_owns (c : Completion) (s : State) : (finish c s).owns = s.owns := rfl
@[simp] theorem finish_devId (c : Completion) (s : State) : (finish c s).devId = s.devId := rfl
@[simp] theorem finish_busId (c : Completion) (s : State) : (finish c s).busId = s.busId := rfl
@[simp] theorem finish_seq (c : Completion) (s : State) : (finish c s).seq = 0 := rfl
@[simp] theorem finish_cmd (c : Completion) (s : State) : (finish c s).cmd = s.cmd := rfl
@[simp] theorem finish_kind (c : Completion) (s : State) : (finish c s).kind = c.kind := rfl
@[simp] theorem finish_busy (c : Completion) (s : State) : (finish c s).busy = false := rfl
@[simp] theorem finish_result (c : Completion) (s : State) : (finish c s).result = s.result := rfl
@[simp] theorem finish_errByte (c : Completion) (s : State) : (finish c s).errByte = c.errByte := rfl
@[simp] theorem finish_errStep (c : Completion) (s : State) : (finish c s).errStep = c.errStep := rfl
@[simp] theorem finish_errSrc (c : Completion) (s : State) : (finish c s).errSrc = c.errSrc := rfl
@[simp] theorem finish_terr (c : Completion) (s : State) : (finish c s).terr = c.terr := rfl
@[simp] theorem finish_curX (c : Completion) (s : State) : (finish c s).curX = s.curX := rfl
@[simp] theorem finish_curY (c : Completion) (s : State) : (finish c s).curY = s.curY := rfl
@[simp] theorem finish_panelWinKnown (c : Completion) (s : State) : (finish c s).panelWinKnown = s.panelWinKnown := rfl
@[simp] theorem finish_params (c : Completion) (s : State) : (finish c s).params = s.params := rfl
@[simp] theorem finish_host (c : Completion) (s : State) : (finish c s).host = s.host := rfl
@[simp] theorem finish_replies (c : Completion) (s : State) : (finish c s).replies = s.replies := rfl
@[simp] theorem finish_allocs (c : Completion) (s : State) : (finish c s).allocs = s.allocs := rfl
@[simp] theorem finish_draws (c : Completion) (s : State) : (finish c s).draws = s.draws := rfl
@[simp] theorem finish_trace (c : Completion) (s : State) : (finish c s).trace = s.trace := rfl
@[simp] theorem finish_diag (c : Completion) (s : State) : (finish c s).diag = s.diag := rfl

/-! ### accept -/

@[simp] theorem accept_fb (c : Fetched) (ms : List HostMove) (s : State) : (accept c ms s).fb = s.fb := rfl
@[simp] theorem accept_glyphRom (c : Fetched) (ms : List HostMove) (s : State) : (accept c ms s).glyphRom = s.glyphRom := rfl
@[simp] theorem accept_initSeq (c : Fetched) (ms : List HostMove) (s : State) : (accept c ms s).initSeq = s.initSeq := rfl
@[simp] theorem accept_session (c : Fetched) (ms : List HostMove) (s : State) : (accept c ms s).session = s.session := rfl
@[simp] theorem accept_owns (c : Fetched) (ms : List HostMove) (s : State) : (accept c ms s).owns = s.owns := rfl
@[simp] theorem accept_devId (c : Fetched) (ms : List HostMove) (s : State) : (accept c ms s).devId = s.devId := rfl
@[simp] theorem accept_busId (c : Fetched) (ms : List HostMove) (s : State) : (accept c ms s).busId = s.busId := rfl
@[simp] theorem accept_seq (c : Fetched) (ms : List HostMove) (s : State) : (accept c ms s).seq = s.seq := rfl
@[simp] theorem accept_cmd (c : Fetched) (ms : List HostMove) (s : State) : (accept c ms s).cmd = c.word := rfl
@[simp] theorem accept_kind (c : Fetched) (ms : List HostMove) (s : State) : (accept c ms s).kind = s.kind := rfl
@[simp] theorem accept_busy (c : Fetched) (ms : List HostMove) (s : State) : (accept c ms s).busy = true := rfl
@[simp] theorem accept_result (c : Fetched) (ms : List HostMove) (s : State) : (accept c ms s).result = s.result := rfl
@[simp] theorem accept_errByte (c : Fetched) (ms : List HostMove) (s : State) : (accept c ms s).errByte = s.errByte := rfl
@[simp] theorem accept_errStep (c : Fetched) (ms : List HostMove) (s : State) : (accept c ms s).errStep = s.errStep := rfl
@[simp] theorem accept_errSrc (c : Fetched) (ms : List HostMove) (s : State) : (accept c ms s).errSrc = s.errSrc := rfl
@[simp] theorem accept_terr (c : Fetched) (ms : List HostMove) (s : State) : (accept c ms s).terr = s.terr := rfl
@[simp] theorem accept_curX (c : Fetched) (ms : List HostMove) (s : State) : (accept c ms s).curX = s.curX := rfl
@[simp] theorem accept_curY (c : Fetched) (ms : List HostMove) (s : State) : (accept c ms s).curY = s.curY := rfl
@[simp] theorem accept_panelWinKnown (c : Fetched) (ms : List HostMove) (s : State) : (accept c ms s).panelWinKnown = s.panelWinKnown := rfl
@[simp] theorem accept_params (c : Fetched) (ms : List HostMove) (s : State) : (accept c ms s).params = s.params := rfl
@[simp] theorem accept_host (c : Fetched) (ms : List HostMove) (s : State) : (accept c ms s).host = restMoves c.rest ms := rfl
@[simp] theorem accept_replies (c : Fetched) (ms : List HostMove) (s : State) : (accept c ms s).replies = s.replies := rfl
@[simp] theorem accept_allocs (c : Fetched) (ms : List HostMove) (s : State) : (accept c ms s).allocs = s.allocs := rfl
@[simp] theorem accept_draws (c : Fetched) (ms : List HostMove) (s : State) : (accept c ms s).draws = s.draws := rfl
@[simp] theorem accept_trace (c : Fetched) (ms : List HostMove) (s : State) : (accept c ms s).trace = s.trace := rfl
@[simp] theorem accept_diag (c : Fetched) (ms : List HostMove) (s : State) : (accept c ms s).diag = s.diag := rfl

/-! ### record -/

@[simp] theorem record_fb (r : Request) (a : Answer) (s : State) : (record r a s).fb = s.fb := rfl
@[simp] theorem record_glyphRom (r : Request) (a : Answer) (s : State) : (record r a s).glyphRom = s.glyphRom := rfl
@[simp] theorem record_initSeq (r : Request) (a : Answer) (s : State) : (record r a s).initSeq = s.initSeq := rfl
@[simp] theorem record_session (r : Request) (a : Answer) (s : State) : (record r a s).session = s.session := rfl
@[simp] theorem record_owns (r : Request) (a : Answer) (s : State) : (record r a s).owns = s.owns := rfl
@[simp] theorem record_devId (r : Request) (a : Answer) (s : State) : (record r a s).devId = s.devId := rfl
@[simp] theorem record_busId (r : Request) (a : Answer) (s : State) : (record r a s).busId = s.busId := rfl
@[simp] theorem record_seq (r : Request) (a : Answer) (s : State) : (record r a s).seq = s.seq := rfl
@[simp] theorem record_cmd (r : Request) (a : Answer) (s : State) : (record r a s).cmd = s.cmd := rfl
@[simp] theorem record_kind (r : Request) (a : Answer) (s : State) : (record r a s).kind = s.kind := rfl
@[simp] theorem record_busy (r : Request) (a : Answer) (s : State) : (record r a s).busy = s.busy := rfl
@[simp] theorem record_result (r : Request) (a : Answer) (s : State) : (record r a s).result = s.result := rfl
@[simp] theorem record_errByte (r : Request) (a : Answer) (s : State) : (record r a s).errByte = s.errByte := rfl
@[simp] theorem record_errStep (r : Request) (a : Answer) (s : State) : (record r a s).errStep = s.errStep := rfl
@[simp] theorem record_errSrc (r : Request) (a : Answer) (s : State) : (record r a s).errSrc = s.errSrc := rfl
@[simp] theorem record_terr (r : Request) (a : Answer) (s : State) : (record r a s).terr = s.terr := rfl
@[simp] theorem record_curX (r : Request) (a : Answer) (s : State) : (record r a s).curX = s.curX := rfl
@[simp] theorem record_curY (r : Request) (a : Answer) (s : State) : (record r a s).curY = s.curY := rfl
@[simp] theorem record_panelWinKnown (r : Request) (a : Answer) (s : State) : (record r a s).panelWinKnown = s.panelWinKnown := rfl
@[simp] theorem record_params (r : Request) (a : Answer) (s : State) : (record r a s).params = s.params := rfl
@[simp] theorem record_host (r : Request) (a : Answer) (s : State) : (record r a s).host = s.host := rfl
@[simp] theorem record_replies (r : Request) (a : Answer) (s : State) : (record r a s).replies = s.replies := rfl
@[simp] theorem record_allocs (r : Request) (a : Answer) (s : State) : (record r a s).allocs = s.allocs := rfl
@[simp] theorem record_draws (r : Request) (a : Answer) (s : State) : (record r a s).draws = s.draws := rfl
@[simp] theorem record_trace (r : Request) (a : Answer) (s : State) : (record r a s).trace = s.trace ++ [⟨r, a, statusWord s⟩] := rfl
@[simp] theorem record_diag (r : Request) (a : Answer) (s : State) : (record r a s).diag = s.diag := rfl

/-! ### dropReply -/

@[simp] theorem dropReply_fb (s : State) : (dropReply s).fb = s.fb := rfl
@[simp] theorem dropReply_glyphRom (s : State) : (dropReply s).glyphRom = s.glyphRom := rfl
@[simp] theorem dropReply_initSeq (s : State) : (dropReply s).initSeq = s.initSeq := rfl
@[simp] theorem dropReply_session (s : State) : (dropReply s).session = s.session := rfl
@[simp] theorem dropReply_owns (s : State) : (dropReply s).owns = s.owns := rfl
@[simp] theorem dropReply_devId (s : State) : (dropReply s).devId = s.devId := rfl
@[simp] theorem dropReply_busId (s : State) : (dropReply s).busId = s.busId := rfl
@[simp] theorem dropReply_seq (s : State) : (dropReply s).seq = s.seq := rfl
@[simp] theorem dropReply_cmd (s : State) : (dropReply s).cmd = s.cmd := rfl
@[simp] theorem dropReply_kind (s : State) : (dropReply s).kind = s.kind := rfl
@[simp] theorem dropReply_busy (s : State) : (dropReply s).busy = s.busy := rfl
@[simp] theorem dropReply_result (s : State) : (dropReply s).result = s.result := rfl
@[simp] theorem dropReply_errByte (s : State) : (dropReply s).errByte = s.errByte := rfl
@[simp] theorem dropReply_errStep (s : State) : (dropReply s).errStep = s.errStep := rfl
@[simp] theorem dropReply_errSrc (s : State) : (dropReply s).errSrc = s.errSrc := rfl
@[simp] theorem dropReply_terr (s : State) : (dropReply s).terr = s.terr := rfl
@[simp] theorem dropReply_curX (s : State) : (dropReply s).curX = s.curX := rfl
@[simp] theorem dropReply_curY (s : State) : (dropReply s).curY = s.curY := rfl
@[simp] theorem dropReply_panelWinKnown (s : State) : (dropReply s).panelWinKnown = s.panelWinKnown := rfl
@[simp] theorem dropReply_params (s : State) : (dropReply s).params = s.params := rfl
@[simp] theorem dropReply_host (s : State) : (dropReply s).host = s.host := rfl
@[simp] theorem dropReply_replies (s : State) : (dropReply s).replies = s.replies.tail := rfl
@[simp] theorem dropReply_allocs (s : State) : (dropReply s).allocs = s.allocs := rfl
@[simp] theorem dropReply_draws (s : State) : (dropReply s).draws = if s.replies.isEmpty then s.draws + 1 else s.draws := rfl
@[simp] theorem dropReply_trace (s : State) : (dropReply s).trace = s.trace := rfl
@[simp] theorem dropReply_diag (s : State) : (dropReply s).diag = s.diag := rfl

/-! ### seqAdvance -/

@[simp] theorem seqAdvance_fb (s : State) : (seqAdvance s).fb = s.fb := rfl
@[simp] theorem seqAdvance_glyphRom (s : State) : (seqAdvance s).glyphRom = s.glyphRom := rfl
@[simp] theorem seqAdvance_initSeq (s : State) : (seqAdvance s).initSeq = s.initSeq := rfl
@[simp] theorem seqAdvance_session (s : State) : (seqAdvance s).session = s.session := rfl
@[simp] theorem seqAdvance_owns (s : State) : (seqAdvance s).owns = s.owns := rfl
@[simp] theorem seqAdvance_devId (s : State) : (seqAdvance s).devId = s.devId := rfl
@[simp] theorem seqAdvance_busId (s : State) : (seqAdvance s).busId = s.busId := rfl
@[simp] theorem seqAdvance_seq (s : State) : (seqAdvance s).seq = s.seq + 1 := rfl
@[simp] theorem seqAdvance_cmd (s : State) : (seqAdvance s).cmd = s.cmd := rfl
@[simp] theorem seqAdvance_kind (s : State) : (seqAdvance s).kind = s.kind := rfl
@[simp] theorem seqAdvance_busy (s : State) : (seqAdvance s).busy = s.busy := rfl
@[simp] theorem seqAdvance_result (s : State) : (seqAdvance s).result = s.result := rfl
@[simp] theorem seqAdvance_errByte (s : State) : (seqAdvance s).errByte = s.errByte := rfl
@[simp] theorem seqAdvance_errStep (s : State) : (seqAdvance s).errStep = s.errStep := rfl
@[simp] theorem seqAdvance_errSrc (s : State) : (seqAdvance s).errSrc = s.errSrc := rfl
@[simp] theorem seqAdvance_terr (s : State) : (seqAdvance s).terr = s.terr := rfl
@[simp] theorem seqAdvance_curX (s : State) : (seqAdvance s).curX = s.curX := rfl
@[simp] theorem seqAdvance_curY (s : State) : (seqAdvance s).curY = s.curY := rfl
@[simp] theorem seqAdvance_panelWinKnown (s : State) : (seqAdvance s).panelWinKnown = s.panelWinKnown := rfl
@[simp] theorem seqAdvance_params (s : State) : (seqAdvance s).params = s.params := rfl
@[simp] theorem seqAdvance_host (s : State) : (seqAdvance s).host = s.host := rfl
@[simp] theorem seqAdvance_replies (s : State) : (seqAdvance s).replies = s.replies := rfl
@[simp] theorem seqAdvance_allocs (s : State) : (seqAdvance s).allocs = s.allocs := rfl
@[simp] theorem seqAdvance_draws (s : State) : (seqAdvance s).draws = s.draws := rfl
@[simp] theorem seqAdvance_trace (s : State) : (seqAdvance s).trace = s.trace := rfl
@[simp] theorem seqAdvance_diag (s : State) : (seqAdvance s).diag = s.diag := rfl

/-! ### wrapLine -/

@[simp] theorem wrapLine_fb (x : Nat) (s : State) : (wrapLine x s).fb = s.fb := rfl
@[simp] theorem wrapLine_glyphRom (x : Nat) (s : State) : (wrapLine x s).glyphRom = s.glyphRom := rfl
@[simp] theorem wrapLine_initSeq (x : Nat) (s : State) : (wrapLine x s).initSeq = s.initSeq := rfl
@[simp] theorem wrapLine_session (x : Nat) (s : State) : (wrapLine x s).session = s.session := rfl
@[simp] theorem wrapLine_owns (x : Nat) (s : State) : (wrapLine x s).owns = s.owns := rfl
@[simp] theorem wrapLine_devId (x : Nat) (s : State) : (wrapLine x s).devId = s.devId := rfl
@[simp] theorem wrapLine_busId (x : Nat) (s : State) : (wrapLine x s).busId = s.busId := rfl
@[simp] theorem wrapLine_seq (x : Nat) (s : State) : (wrapLine x s).seq = s.seq := rfl
@[simp] theorem wrapLine_cmd (x : Nat) (s : State) : (wrapLine x s).cmd = s.cmd := rfl
@[simp] theorem wrapLine_kind (x : Nat) (s : State) : (wrapLine x s).kind = s.kind := rfl
@[simp] theorem wrapLine_busy (x : Nat) (s : State) : (wrapLine x s).busy = s.busy := rfl
@[simp] theorem wrapLine_result (x : Nat) (s : State) : (wrapLine x s).result = s.result := rfl
@[simp] theorem wrapLine_errByte (x : Nat) (s : State) : (wrapLine x s).errByte = s.errByte := rfl
@[simp] theorem wrapLine_errStep (x : Nat) (s : State) : (wrapLine x s).errStep = s.errStep := rfl
@[simp] theorem wrapLine_errSrc (x : Nat) (s : State) : (wrapLine x s).errSrc = s.errSrc := rfl
@[simp] theorem wrapLine_terr (x : Nat) (s : State) : (wrapLine x s).terr = s.terr := rfl
@[simp] theorem wrapLine_curX (x : Nat) (s : State) : (wrapLine x s).curX = x := rfl
@[simp] theorem wrapLine_curY (x : Nat) (s : State) : (wrapLine x s).curY = s.curY + 1 := rfl
@[simp] theorem wrapLine_panelWinKnown (x : Nat) (s : State) : (wrapLine x s).panelWinKnown = s.panelWinKnown := rfl
@[simp] theorem wrapLine_params (x : Nat) (s : State) : (wrapLine x s).params = s.params := rfl
@[simp] theorem wrapLine_host (x : Nat) (s : State) : (wrapLine x s).host = s.host := rfl
@[simp] theorem wrapLine_replies (x : Nat) (s : State) : (wrapLine x s).replies = s.replies := rfl
@[simp] theorem wrapLine_allocs (x : Nat) (s : State) : (wrapLine x s).allocs = s.allocs := rfl
@[simp] theorem wrapLine_draws (x : Nat) (s : State) : (wrapLine x s).draws = s.draws := rfl
@[simp] theorem wrapLine_trace (x : Nat) (s : State) : (wrapLine x s).trace = s.trace := rfl
@[simp] theorem wrapLine_diag (x : Nat) (s : State) : (wrapLine x s).diag = s.diag := rfl

/-! ### closeSession -/

@[simp] theorem closeSession_fb (s : State) : (closeSession s).fb = s.fb := rfl
@[simp] theorem closeSession_glyphRom (s : State) : (closeSession s).glyphRom = s.glyphRom := rfl
@[simp] theorem closeSession_initSeq (s : State) : (closeSession s).initSeq = s.initSeq := rfl
@[simp] theorem closeSession_session (s : State) : (closeSession s).session = .closed := rfl
@[simp] theorem closeSession_owns (s : State) : (closeSession s).owns = s.owns := rfl
@[simp] theorem closeSession_devId (s : State) : (closeSession s).devId = 0 := rfl
@[simp] theorem closeSession_busId (s : State) : (closeSession s).busId = 0 := rfl
@[simp] theorem closeSession_seq (s : State) : (closeSession s).seq = s.seq := rfl
@[simp] theorem closeSession_cmd (s : State) : (closeSession s).cmd = s.cmd := rfl
@[simp] theorem closeSession_kind (s : State) : (closeSession s).kind = s.kind := rfl
@[simp] theorem closeSession_busy (s : State) : (closeSession s).busy = s.busy := rfl
@[simp] theorem closeSession_result (s : State) : (closeSession s).result = s.result := rfl
@[simp] theorem closeSession_errByte (s : State) : (closeSession s).errByte = s.errByte := rfl
@[simp] theorem closeSession_errStep (s : State) : (closeSession s).errStep = s.errStep := rfl
@[simp] theorem closeSession_errSrc (s : State) : (closeSession s).errSrc = s.errSrc := rfl
@[simp] theorem closeSession_terr (s : State) : (closeSession s).terr = s.terr := rfl
@[simp] theorem closeSession_curX (s : State) : (closeSession s).curX = s.curX := rfl
@[simp] theorem closeSession_curY (s : State) : (closeSession s).curY = s.curY := rfl
@[simp] theorem closeSession_panelWinKnown (s : State) : (closeSession s).panelWinKnown = s.panelWinKnown := rfl
@[simp] theorem closeSession_params (s : State) : (closeSession s).params = s.params := rfl
@[simp] theorem closeSession_host (s : State) : (closeSession s).host = s.host := rfl
@[simp] theorem closeSession_replies (s : State) : (closeSession s).replies = s.replies := rfl
@[simp] theorem closeSession_allocs (s : State) : (closeSession s).allocs = s.allocs := rfl
@[simp] theorem closeSession_draws (s : State) : (closeSession s).draws = s.draws := rfl
@[simp] theorem closeSession_trace (s : State) : (closeSession s).trace = s.trace := rfl
@[simp] theorem closeSession_diag (s : State) : (closeSession s).diag = s.diag := rfl

/-! ### undoBorrowing -/

@[simp] theorem undoBorrowing_fb (s : State) : (undoBorrowing s).fb = s.fb := rfl
@[simp] theorem undoBorrowing_glyphRom (s : State) : (undoBorrowing s).glyphRom = s.glyphRom := rfl
@[simp] theorem undoBorrowing_initSeq (s : State) : (undoBorrowing s).initSeq = s.initSeq := rfl
@[simp] theorem undoBorrowing_session (s : State) : (undoBorrowing s).session = .uninit := rfl
@[simp] theorem undoBorrowing_owns (s : State) : (undoBorrowing s).owns = s.owns := rfl
@[simp] theorem undoBorrowing_devId (s : State) : (undoBorrowing s).devId = 0 := rfl
@[simp] theorem undoBorrowing_busId (s : State) : (undoBorrowing s).busId = s.busId := rfl
@[simp] theorem undoBorrowing_seq (s : State) : (undoBorrowing s).seq = s.seq := rfl
@[simp] theorem undoBorrowing_cmd (s : State) : (undoBorrowing s).cmd = s.cmd := rfl
@[simp] theorem undoBorrowing_kind (s : State) : (undoBorrowing s).kind = s.kind := rfl
@[simp] theorem undoBorrowing_busy (s : State) : (undoBorrowing s).busy = s.busy := rfl
@[simp] theorem undoBorrowing_result (s : State) : (undoBorrowing s).result = s.result := rfl
@[simp] theorem undoBorrowing_errByte (s : State) : (undoBorrowing s).errByte = s.errByte := rfl
@[simp] theorem undoBorrowing_errStep (s : State) : (undoBorrowing s).errStep = s.errStep := rfl
@[simp] theorem undoBorrowing_errSrc (s : State) : (undoBorrowing s).errSrc = s.errSrc := rfl
@[simp] theorem undoBorrowing_terr (s : State) : (undoBorrowing s).terr = s.terr := rfl
@[simp] theorem undoBorrowing_curX (s : State) : (undoBorrowing s).curX = s.curX := rfl
@[simp] theorem undoBorrowing_curY (s : State) : (undoBorrowing s).curY = s.curY := rfl
@[simp] theorem undoBorrowing_panelWinKnown (s : State) : (undoBorrowing s).panelWinKnown = s.panelWinKnown := rfl
@[simp] theorem undoBorrowing_params (s : State) : (undoBorrowing s).params = s.params := rfl
@[simp] theorem undoBorrowing_host (s : State) : (undoBorrowing s).host = s.host := rfl
@[simp] theorem undoBorrowing_replies (s : State) : (undoBorrowing s).replies = s.replies := rfl
@[simp] theorem undoBorrowing_allocs (s : State) : (undoBorrowing s).allocs = s.allocs := rfl
@[simp] theorem undoBorrowing_draws (s : State) : (undoBorrowing s).draws = s.draws := rfl
@[simp] theorem undoBorrowing_trace (s : State) : (undoBorrowing s).trace = s.trace := rfl
@[simp] theorem undoBorrowing_diag (s : State) : (undoBorrowing s).diag = s.diag := rfl

/-! ### blockReset -/

@[simp] theorem blockReset_fb (s : State) : (blockReset s).fb = freeFramebuffer s.draws := by simp only [blockReset, State.reset]
@[simp] theorem blockReset_glyphRom (s : State) : (blockReset s).glyphRom = s.glyphRom := by simp only [blockReset, State.reset]
@[simp] theorem blockReset_initSeq (s : State) : (blockReset s).initSeq = s.initSeq := by simp only [blockReset, State.reset]
@[simp] theorem blockReset_session (s : State) : (blockReset s).session = .uninit := by simp only [blockReset, State.reset]
@[simp] theorem blockReset_owns (s : State) : (blockReset s).owns = false := by simp only [blockReset, State.reset]
@[simp] theorem blockReset_devId (s : State) : (blockReset s).devId = 0 := by simp only [blockReset, State.reset]
@[simp] theorem blockReset_busId (s : State) : (blockReset s).busId = 0 := by simp only [blockReset, State.reset]
@[simp] theorem blockReset_seq (s : State) : (blockReset s).seq = 0 := by simp only [blockReset, State.reset]
@[simp] theorem blockReset_cmd (s : State) : (blockReset s).cmd = 0 := by simp only [blockReset, State.reset]
@[simp] theorem blockReset_kind (s : State) : (blockReset s).kind = .ok := by simp only [blockReset, State.reset]
@[simp] theorem blockReset_busy (s : State) : (blockReset s).busy = false := by simp only [blockReset, State.reset]
@[simp] theorem blockReset_result (s : State) : (blockReset s).result = false := by simp only [blockReset, State.reset]
@[simp] theorem blockReset_errByte (s : State) : (blockReset s).errByte = 0 := by simp only [blockReset, State.reset]
@[simp] theorem blockReset_errStep (s : State) : (blockReset s).errStep = 0 := by simp only [blockReset, State.reset]
@[simp] theorem blockReset_errSrc (s : State) : (blockReset s).errSrc = .none := by simp only [blockReset, State.reset]
@[simp] theorem blockReset_terr (s : State) : (blockReset s).terr = 0 := by simp only [blockReset, State.reset]
@[simp] theorem blockReset_curX (s : State) : (blockReset s).curX = 0 := by simp only [blockReset, State.reset]
@[simp] theorem blockReset_curY (s : State) : (blockReset s).curY = 0 := by simp only [blockReset, State.reset]
@[simp] theorem blockReset_panelWinKnown (s : State) : (blockReset s).panelWinKnown = false := by simp only [blockReset, State.reset]
@[simp] theorem blockReset_params (s : State) : (blockReset s).params = s.params := by simp only [blockReset, State.reset]
@[simp] theorem blockReset_host (s : State) : (blockReset s).host = s.host := by simp only [blockReset, State.reset]
@[simp] theorem blockReset_replies (s : State) : (blockReset s).replies = s.replies := by simp only [blockReset, State.reset]
@[simp] theorem blockReset_allocs (s : State) : (blockReset s).allocs = s.allocs := by simp only [blockReset, State.reset]
@[simp] theorem blockReset_draws (s : State) : (blockReset s).draws = s.draws + 1 := by simp only [blockReset, State.reset]
@[simp] theorem blockReset_trace (s : State) : (blockReset s).trace = s.trace := by simp only [blockReset, State.reset]
@[simp] theorem blockReset_diag (s : State) : (blockReset s).diag = s.diag := by simp only [blockReset, State.reset]

/-! ### dropAlloc: only the draws of `AllocOK()` and the counter can change -/

@[simp] theorem dropAlloc_fb (s : State) : (dropAlloc s).fb = s.fb := by unfold dropAlloc; split <;> rfl
@[simp] theorem dropAlloc_glyphRom (s : State) : (dropAlloc s).glyphRom = s.glyphRom := by unfold dropAlloc; split <;> rfl
@[simp] theorem dropAlloc_initSeq (s : State) : (dropAlloc s).initSeq = s.initSeq := by unfold dropAlloc; split <;> rfl
@[simp] theorem dropAlloc_session (s : State) : (dropAlloc s).session = s.session := by unfold dropAlloc; split <;> rfl
@[simp] theorem dropAlloc_owns (s : State) : (dropAlloc s).owns = s.owns := by unfold dropAlloc; split <;> rfl
@[simp] theorem dropAlloc_devId (s : State) : (dropAlloc s).devId = s.devId := by unfold dropAlloc; split <;> rfl
@[simp] theorem dropAlloc_busId (s : State) : (dropAlloc s).busId = s.busId := by unfold dropAlloc; split <;> rfl
@[simp] theorem dropAlloc_seq (s : State) : (dropAlloc s).seq = s.seq := by unfold dropAlloc; split <;> rfl
@[simp] theorem dropAlloc_cmd (s : State) : (dropAlloc s).cmd = s.cmd := by unfold dropAlloc; split <;> rfl
@[simp] theorem dropAlloc_kind (s : State) : (dropAlloc s).kind = s.kind := by unfold dropAlloc; split <;> rfl
@[simp] theorem dropAlloc_busy (s : State) : (dropAlloc s).busy = s.busy := by unfold dropAlloc; split <;> rfl
@[simp] theorem dropAlloc_result (s : State) : (dropAlloc s).result = s.result := by unfold dropAlloc; split <;> rfl
@[simp] theorem dropAlloc_errByte (s : State) : (dropAlloc s).errByte = s.errByte := by unfold dropAlloc; split <;> rfl
@[simp] theorem dropAlloc_errStep (s : State) : (dropAlloc s).errStep = s.errStep := by unfold dropAlloc; split <;> rfl
@[simp] theorem dropAlloc_errSrc (s : State) : (dropAlloc s).errSrc = s.errSrc := by unfold dropAlloc; split <;> rfl
@[simp] theorem dropAlloc_terr (s : State) : (dropAlloc s).terr = s.terr := by unfold dropAlloc; split <;> rfl
@[simp] theorem dropAlloc_curX (s : State) : (dropAlloc s).curX = s.curX := by unfold dropAlloc; split <;> rfl
@[simp] theorem dropAlloc_curY (s : State) : (dropAlloc s).curY = s.curY := by unfold dropAlloc; split <;> rfl
@[simp] theorem dropAlloc_panelWinKnown (s : State) : (dropAlloc s).panelWinKnown = s.panelWinKnown := by unfold dropAlloc; split <;> rfl
@[simp] theorem dropAlloc_params (s : State) : (dropAlloc s).params = s.params := by unfold dropAlloc; split <;> rfl
@[simp] theorem dropAlloc_host (s : State) : (dropAlloc s).host = s.host := by unfold dropAlloc; split <;> rfl
@[simp] theorem dropAlloc_replies (s : State) : (dropAlloc s).replies = s.replies := by unfold dropAlloc; split <;> rfl
@[simp] theorem dropAlloc_trace (s : State) : (dropAlloc s).trace = s.trace := by unfold dropAlloc; split <;> rfl
@[simp] theorem dropAlloc_diag (s : State) : (dropAlloc s).diag = s.diag := by unfold dropAlloc; split <;> rfl

/-! ### statusWord sees six fields and two mirrors -/

/-- `STATUS` is a function of the completion fields, `RESULT`, `BUSY` and the two mirrored registers. -/
theorem statusWord_congr {s t : State} (hk : s.kind = t.kind) (hb : s.busy = t.busy) (hr : s.result = t.result)
    (hy : s.errByte = t.errByte) (hp : s.errStep = t.errStep) (hc : s.errSrc = t.errSrc)
    (hs : s.session = t.session) (ho : s.owns = t.owns) : statusWord s = statusWord t := by
  simp only [statusWord, hk, hb, hr, hy, hp, hc, hs, ho]

end Sys2Proof.Machine
end

