-- ==== Sys2Proof/Laws/Ops.lean ====
section
/-! SUPPORT. What the shared operations can do: the session checks, the end of a command, and a request to
the transport. -/

namespace Sys2Proof.Machine

open Config Safety

/-! ## Session checks (60_exceptions.md R245) -/

theorem whenReady_of_ready {f : State → State} {s : State} (h : s.session = .ready) : whenReady f s = f s := by
  simp [whenReady, h]

theorem whenReady_of_not_ready {f : State → State} {s : State} (h : s.session ≠ .ready) :
    whenReady f s = finish notInitialized s := by
  simp [whenReady, h]

theorem whenInitAllowed_of_closed {f : State → State} {s : State} (h : s.session = .closed) :
    whenInitAllowed f s = finish notInitialized s := by
  simp [whenInitAllowed, h]

theorem whenInitAllowed_of_ready {f : State → State} {s : State} (h : s.session = .ready) :
    whenInitAllowed f s = finish illegalCommand s := by
  simp [whenInitAllowed, h]

theorem whenInitAllowed_of_uninit {f : State → State} {s : State} (h : s.session = .uninit) :
    whenInitAllowed f s = f s := by
  simp [whenInitAllowed, h]

/-- Everything the check of INIT_* can do. -/
theorem whenInitAllowed_cases (f : State → State) (s : State) :
    (s.session = .closed ∧ whenInitAllowed f s = finish notInitialized s) ∨
    (s.session = .ready ∧ whenInitAllowed f s = finish illegalCommand s) ∨
    ((s.session = .uninit ∨ s.session = .configuring) ∧ whenInitAllowed f s = f s) := by
  cases h : s.session <;> simp [whenInitAllowed, h]

/-! ## The end of a command (60_exceptions.md R241 to R243) -/

theorem finish_eq_ended (c : Completion) (s : State) :
    finish c s = ended c.kind c.errSrc c.errByte c.errStep c.terr s := rfl

theorem complete_eq_endedPlain (s : State) : complete s = endedPlain .ok s := rfl

theorem finish_notInitialized_eq (s : State) : finish notInitialized s = endedPlain .notInitialized s := rfl

theorem finish_invalidArgument_eq (s : State) : finish invalidArgument s = endedPlain .invalidArgument s := rfl

theorem finish_illegalCommand_eq (s : State) : finish illegalCommand s = endedPlain .illegalCommand s := rfl

/-! ## Answers of the transport -/

theorem nextReply_cons {s : State} {r : Reply} {rs : List Reply} (h : s.replies = r :: rs) : nextReply s = r := by
  simp [nextReply, h]

theorem dropReply_cons {s : State} {r : Reply} {rs : List Reply} (h : s.replies = r :: rs) :
    dropReply s = { s with replies := rs } := by
  simp [dropReply, h]

/-- A request that is only acknowledged, with its answer in the list. -/
theorem requestAck_cons {s : State} {a : Reply} {rs : List Reply} (h : s.replies = a :: rs) (r : Request) :
    requestAck r s =
      (replyError a, { s with replies := rs, trace := s.trace ++ [⟨r, ackAnswer a, statusWord s⟩] }) := by
  simp [requestAck, record, nextReply_cons h, dropReply_cons h, statusWord]

/-- A request for a handle, with its answer in the list. -/
theorem requestHandle_cons {s : State} {a : Reply} {rs : List Reply} (h : s.replies = a :: rs) (r : Request) :
    requestHandle r s =
      (replyHandle a, { s with replies := rs, trace := s.trace ++ [⟨r, handleAnswer a, statusWord s⟩] }) := by
  simp [requestHandle, record, nextReply_cons h, dropReply_cons h, statusWord]

@[simp] theorem statusWord_dropReply (s : State) : statusWord (dropReply s) = statusWord s := rfl

@[simp] theorem statusWord_record (r : Request) (a : Answer) (s : State) : statusWord (record r a s) = statusWord s := rfl

@[simp] theorem statusWord_seqAdvance (s : State) : statusWord (seqAdvance s) = statusWord s := rfl

@[simp] theorem statusWord_dropAlloc (s : State) : statusWord (dropAlloc s) = statusWord s := by
  unfold dropAlloc; split <;> rfl

/-- A handle the transport hands back is never 0 (10_state.md R36). -/
theorem replyHandle_ne_zero {a : Reply} {h : Word32} (e : replyHandle a = .ok h) : h ≠ 0 := by
  cases a with
  | ok g => cases e; exact g.property
  | fail e' => cases e

/-! ## What bus traffic can change -/

/-- Two states are the same but for what requests to the transport change: `SEQ`, the inputs taken, and
the trace. -/
def SameButBus (s t : State) : Prop :=
  t = { s with seq := t.seq, replies := t.replies, allocs := t.allocs, draws := t.draws, trace := t.trace }

theorem SameButBus.refl (s : State) : SameButBus s s := rfl

theorem SameButBus.trans {s t u : State} (h : SameButBus s t) (g : SameButBus t u) : SameButBus s u := by
  unfold SameButBus at *
  rw [g, h]

theorem SameButBus.fields {s t : State} (h : SameButBus s t) :
    t.fb = s.fb ∧ t.glyphRom = s.glyphRom ∧ t.initSeq = s.initSeq ∧ t.session = s.session ∧ t.owns = s.owns ∧
    t.devId = s.devId ∧ t.busId = s.busId ∧ t.cmd = s.cmd ∧ t.kind = s.kind ∧ t.busy = s.busy ∧
    t.result = s.result ∧ t.panelWinKnown = s.panelWinKnown ∧ t.params = s.params ∧ t.host = s.host ∧
    t.diag = s.diag ∧ statusWord t = statusWord s := by
  unfold SameButBus at h
  rw [h]
  simp [statusWord]

theorem requestAck_same (r : Request) (s : State) : SameButBus s (requestAck r s).2 := rfl

theorem requestHandle_same (r : Request) (s : State) : SameButBus s (requestHandle r s).2 := rfl

theorem seqAdvance_same (s : State) : SameButBus s (seqAdvance s) := rfl

theorem dropAlloc_same (s : State) : SameButBus s (dropAlloc s) := by
  unfold dropAlloc
  split
  · rfl
  · exact SameButBus.refl s

/-! ## How the trace grows -/

/-- From `s` to `t` exactly the requests `rs` were made, in order, each with `STATUS` as it reads in `s`. -/
def Grew (s t : State) (rs : List Request) : Prop :=
  ∃ new, t.trace = s.trace ++ new ∧ requests new = rs ∧ ∀ x ∈ new, x.status = statusWord s

theorem Grew.refl (s : State) : Grew s s [] := ⟨[], by simp, rfl, by simp⟩

theorem Grew.of_trace_eq {s t u : State} {rs : List Request} (h : Grew s t rs) (g : u.trace = t.trace) : Grew s u rs := by
  obtain ⟨new, h1, h2, h3⟩ := h
  exact ⟨new, by rw [g, h1], h2, h3⟩

theorem Grew.trans {s t u : State} {rs qs : List Request} (h : Grew s t rs) (g : Grew t u qs)
    (hs : statusWord t = statusWord s) : Grew s u (rs ++ qs) := by
  obtain ⟨n1, h1, h2, h3⟩ := h
  obtain ⟨n2, g1, g2, g3⟩ := g
  refine ⟨n1 ++ n2, by rw [g1, h1, List.append_assoc], by simp only [requests, List.map_append] at *; rw [h2, g2], ?_⟩
  intro x hx
  rcases List.mem_append.mp hx with h | h
  · exact h3 x h
  · rw [g3 x h, hs]

theorem Grew.requests_eq {s t : State} {rs : List Request} (h : Grew s t rs) :
    requests t.trace = requests s.trace ++ rs := by
  obtain ⟨new, h1, h2, -⟩ := h
  rw [h1, ← h2]
  simp [requests]

theorem record_grew (r : Request) (a : Answer) (s : State) : Grew s (record r a s) [r] :=
  ⟨[⟨r, a, statusWord s⟩], rfl, rfl, by simp⟩

theorem requestAck_grew (r : Request) (s : State) : Grew s (requestAck r s).2 [r] :=
  ⟨[⟨r, ackAnswer (nextReply s), statusWord s⟩], rfl, rfl, by simp⟩

theorem requestHandle_grew (r : Request) (s : State) : Grew s (requestHandle r s).2 [r] :=
  ⟨[⟨r, handleAnswer (nextReply s), statusWord s⟩], rfl, rfl, by simp⟩

/-! ## The command port -/

@[simp] theorem restMoves_nil (ms : List HostMove) : restMoves [] ms = ms := rfl

@[simp] theorem restMoves_cons (b : Byte) (bs : List Byte) (ms : List HostMove) :
    restMoves (b :: bs) ms = .send (b :: bs) :: ms := rfl

end Sys2Proof.Machine
end

