-- ==== Sys2Proof/Laws/Bus.lean ====
section
/-! SUPPORT. What the frame primitives can do (42_bus_protocol.md R170 to R174): their effect for every
answer of the transport, and their exact result where the answers stand in State. -/

namespace Sys2Proof.Machine

open Config Safety

/-! ## One command frame -/

theorem sendCommand_of_fail {s : State} {e : Word32} (b : Byte) (h : nextReply s = .fail e) :
    sendCommand b s = (some (commandFrameFailed b s.seq e),
      record (commandFrame s s.devId b) (.fail e) (dropReply s)) := by
  simp [sendCommand, transmit, requestAck, h, replyError, ackAnswer, commandFrame, busTimeout]

theorem sendCommand_of_ok {s : State} {g : Handle} (b : Byte) (h : nextReply s = .ok g) :
    sendCommand b s = (none, seqAdvance (record (commandFrame s s.devId b) .ok (dropReply s))) := by
  simp [sendCommand, transmit, requestAck, h, replyError, ackAnswer, commandFrame, busTimeout]

/-- Everything one command frame can do: one request, and then success with `SEQ` advanced or failure. -/
theorem sendCommand_cases (b : Byte) (s : State) :
    SameButBus s (sendCommand b s).2 ∧ (sendCommand b s).2.allocs = s.allocs ∧
    Grew s (sendCommand b s).2 [commandFrame s s.devId b] ∧
    (((sendCommand b s).1 = none ∧ (sendCommand b s).2.seq = s.seq + 1) ∨
      ∃ e, (sendCommand b s).1 = some (commandFrameFailed b s.seq e)) := by
  cases h : nextReply s with
  | ok g => rw [sendCommand_of_ok b h]; exact ⟨rfl, rfl, ⟨_, rfl, rfl, by simp⟩, .inl ⟨rfl, rfl⟩⟩
  | fail e => rw [sendCommand_of_fail b h]; exact ⟨rfl, rfl, ⟨_, rfl, rfl, by simp⟩, .inr ⟨e, rfl⟩⟩

/-! ## Command frames in a row -/

/-- One more frame, one more step of `SEQ`. -/
theorem seq_add_succ (q : BitVec 5) (n : Nat) : q + 1 + BitVec.ofNat 5 n = q + BitVec.ofNat 5 (n + 1) := by
  apply BitVec.eq_of_toNat_eq
  simp
  omega

theorem sendCommands_cons_ok {s t : State} {b : Byte} {bs : List Byte} (h : sendCommand b s = (none, t)) :
    sendCommands (b :: bs) s = sendCommands bs t := by
  simp [sendCommands, h]

theorem sendCommands_cons_err {s t : State} {b : Byte} {bs : List Byte} {c : Completion}
    (h : sendCommand b s = (some c, t)) : sendCommands (b :: bs) s = (some c, t) := by
  simp [sendCommands, h]

/-- The frame of a byte depends on the state only through the timeout and the device it is given. -/
theorem commandFrame_same {s t : State} (h : SameButBus s t) (dev : Word32) (b : Byte) :
    commandFrame t dev b = commandFrame s dev b := by
  have := h.fields.2.2.2.2.2.2.2.2.2.2.2.2.1
  simp [commandFrame, this]

/-- Everything command frames in a row can do: the requests are the first `n` frames, in order; all of them
on success; and on failure the last one requested is the one reported. -/
theorem sendCommands_cases : ∀ (bs : List Byte) (s : State),
    SameButBus s (sendCommands bs s).2 ∧ (sendCommands bs s).2.allocs = s.allocs ∧
    ∃ n ≤ bs.length,
      Grew s (sendCommands bs s).2 ((bs.take n).map (commandFrame s s.devId)) ∧
      (((sendCommands bs s).1 = none ∧ n = bs.length ∧
          (sendCommands bs s).2.seq = s.seq + BitVec.ofNat 5 n) ∨
        ∃ k b e, n = k + 1 ∧ bs[k]? = some b ∧
          (sendCommands bs s).1 = some (commandFrameFailed b (s.seq + BitVec.ofNat 5 k) e))
  | [], s => ⟨SameButBus.refl s, rfl, 0, Nat.le_refl _, Grew.refl s, .inl (by simp [sendCommands])⟩
  | b :: bs, s => by
    obtain ⟨hsame, halloc, hreq, hres⟩ := sendCommand_cases b s
    rcases hp : sendCommand b s with ⟨r, t⟩
    rw [hp] at hsame halloc hreq hres
    simp only at hsame halloc hreq hres
    rcases hres with ⟨rfl, hseq⟩ | ⟨e, rfl⟩
    · rw [sendCommands_cons_ok hp]
      obtain ⟨ih1, ih2, n, hn, ih3, ih4⟩ := sendCommands_cases bs t
      have hdev : t.devId = s.devId := hsame.fields.2.2.2.2.2.1
      have hfun : commandFrame t t.devId = commandFrame s s.devId := by
        funext x; rw [hdev]; exact commandFrame_same hsame _ x
      refine ⟨hsame.trans ih1, ih2.trans halloc, n + 1, by simpa using hn, ?_, ?_⟩
      · rw [hfun] at ih3
        simpa using hreq.trans ih3 hsame.fields.2.2.2.2.2.2.2.2.2.2.2.2.2.2.2
      · rcases ih4 with ⟨h1, h2, h3⟩ | ⟨k, b', e, h1, h2, h3⟩
        · refine .inl ⟨h1, by simp [h2], ?_⟩
          rw [h3, hseq, seq_add_succ]
        · refine .inr ⟨k + 1, b', e, by simp [h1], by simpa using h2, ?_⟩
          rw [h3, hseq, seq_add_succ]
    · rw [sendCommands_cons_err hp]
      exact ⟨hsame, halloc, 1, by simp, by simpa using hreq, .inr ⟨0, b, e, rfl, rfl, by simp⟩⟩

/-- Command frames in a row, where every answer stands in State and is a success. -/
theorem sendCommands_all_ok : ∀ (bs : List Byte) (hs : List Handle) (rest : List Reply) (s : State),
    hs.length = bs.length → s.replies = hs.map .ok ++ rest →
    sendCommands bs s = (none,
      { s with seq := s.seq + BitVec.ofNat 5 bs.length, replies := rest
               trace := s.trace ++ bs.map fun b => okIn s (commandFrame s s.devId b) })
  | [], [], rest, s, _, h => by
    simp only [List.map_nil, List.nil_append] at h
    simp [sendCommands, ← h]
  | b :: bs, g :: hs, rest, s, hl, h => by
    have hcons : s.replies = .ok g :: (hs.map .ok ++ rest) := by simpa using h
    have h1 := sendCommand_of_ok b (nextReply_cons hcons)
    rw [sendCommands_cons_ok h1, dropReply_cons hcons]
    rw [sendCommands_all_ok bs hs rest _ (by simpa using hl) rfl]
    simp [seqAdvance, record, okIn, commandFrame, statusWord, BitVec.ofNat_add, BitVec.add_assoc, BitVec.add_comm]
  | [], _ :: _, _, _, hl, _ => by simp at hl
  | _ :: _, [], _, _, hl, _ => by simp at hl

/-- Command frames in a row, where the answers stand in State and the first failure is the one to the
frame of byte `b`. -/
theorem sendCommands_fail_at (bs : List Byte) (b : Byte) (after : List Byte) (hs : List Handle) (e : Word32)
    (rest : List Reply) (s : State) (hl : hs.length = bs.length) (h : s.replies = hs.map .ok ++ .fail e :: rest) :
    sendCommands (bs ++ b :: after) s =
      (some (commandFrameFailed b (s.seq + BitVec.ofNat 5 bs.length) e),
        { s with seq := s.seq + BitVec.ofNat 5 bs.length, replies := rest
                 trace := s.trace ++ (bs.map fun b => okIn s (commandFrame s s.devId b))
                   ++ [failIn s (commandFrame s s.devId b) e] }) := by
  induction bs generalizing s hs with
  | nil =>
    cases hs with
    | nil =>
      have hcons : s.replies = .fail e :: rest := by simpa using h
      have h1 := sendCommand_of_fail b (nextReply_cons hcons)
      rw [List.nil_append, sendCommands_cons_err h1, dropReply_cons hcons]
      simp [record, failIn, commandFrame, statusWord]
    | cons g hs => simp at hl
  | cons a bs ih =>
    cases hs with
    | nil => simp at hl
    | cons g hs =>
      have hcons : s.replies = .ok g :: (hs.map .ok ++ .fail e :: rest) := by simpa using h
      have h1 := sendCommand_of_ok a (nextReply_cons hcons)
      rw [List.cons_append, sendCommands_cons_ok h1, dropReply_cons hcons]
      rw [ih hs _ (by simpa using hl) rfl]
      simp [seqAdvance, record, okIn, failIn, commandFrame, statusWord, BitVec.ofNat_add, BitVec.add_assoc,
        BitVec.add_comm]

/-! ## The data frame -/

@[simp] theorem fbBytes_isEmpty (m : Memory) : (fbBytes m).isEmpty = false := by
  simp [fbBytes, FB_SIZE]

@[simp] theorem length_fbBytes (m : Memory) : (fbBytes m).length = 1024 := by simp [fbBytes]

/-- Everything a non-empty data frame can do: no request where its assembly fails, and one otherwise. -/
theorem sendData_cases {bs : List Byte} (hne : bs.isEmpty = false) (s : State) :
    SameButBus s (sendData bs s).2 ∧
    ((allocOk s = false ∧ (sendData bs s).1 = some (outOfMemory s.seq) ∧ (sendData bs s).2.trace = s.trace) ∨
     (allocOk s = true ∧
      Grew s (sendData bs s).2 [.transmit s.devId (0x40 :: bs) (busTimeout s)] ∧
      ((sendData bs s).1 = none ∨ ∃ e, (sendData bs s).1 = some (dataFrameFailed s.seq e)))) := by
  have hd := dropAlloc_same s
  cases ha : allocOk s with
  | false => simp [sendData, hne, ha, hd]
  | true =>
    cases hr : nextReply (dropAlloc s) with
    | ok g =>
      have : sendData bs s = (none, seqAdvance (record (.transmit s.devId (0x40 :: bs) (busTimeout s)) .ok
          (dropReply (dropAlloc s)))) := by
        simp [sendData, hne, ha, sendFrame, transmit, requestAck, hr, replyError, ackAnswer, busTimeout, CTRL_DATA]
      rw [this]
      exact ⟨hd.trans rfl, .inr ⟨rfl, ⟨[⟨_, .ok, statusWord s⟩], by simp, rfl, by simp⟩, .inl rfl⟩⟩
    | fail e =>
      have : sendData bs s = (some (dataFrameFailed s.seq e), record (.transmit s.devId (0x40 :: bs) (busTimeout s))
          (.fail e) (dropReply (dropAlloc s))) := by
        simp [sendData, hne, ha, sendFrame, transmit, requestAck, hr, replyError, ackAnswer, busTimeout, CTRL_DATA]
      rw [this]
      exact ⟨hd.trans rfl, .inr ⟨rfl, ⟨[⟨_, .fail e, statusWord s⟩], by simp, rfl, by simp⟩, .inr ⟨e, rfl⟩⟩⟩

/-- An assembly that succeeds by what stands in State. -/
theorem allocOk_of_assemblyOk {s : State} (h : assemblyOk s = true) : allocOk s = true := by
  unfold assemblyOk at h
  unfold allocOk
  cases hm : s.params.allocMayFail with
  | false => simp
  | true =>
    cases ha : s.allocs with
    | nil => simp [hm, ha] at h
    | cons b bs => simpa [hm, ha] using h

/-- The draws taken by an assembly that succeeds by what stands in State. -/
theorem dropAlloc_of_assemblyOk {s : State} (h : assemblyOk s = true) :
    dropAlloc s = { s with allocs := allocsAfter s } := by
  unfold assemblyOk at h
  unfold dropAlloc allocsAfter
  cases hm : s.params.allocMayFail with
  | false => simp
  | true =>
    cases ha : s.allocs with
    | nil => simp [hm, ha] at h
    | cons b bs => simp

/-- A data frame that is assembled and transmitted, by what stands in State. -/
theorem sendData_ok_cons {s : State} {bs : List Byte} {g : Handle} {rest : List Reply} (hne : bs.isEmpty = false)
    (ha : assemblyOk s = true) (h : s.replies = .ok g :: rest) :
    sendData bs s = (none,
      { s with seq := s.seq + 1, replies := rest, allocs := allocsAfter s
               trace := s.trace ++ [okIn s (.transmit s.devId (0x40 :: bs) (busTimeout s))] }) := by
  unfold sendData
  rw [if_neg (by simp [hne]), if_pos (allocOk_of_assemblyOk ha), dropAlloc_of_assemblyOk ha, sendFrame, transmit,
    requestAck_cons (s := { s with allocs := allocsAfter s }) h]
  rfl

/-- A data frame that is assembled and not transmitted, by what stands in State. -/
theorem sendData_fail_cons {s : State} {bs : List Byte} {e : Word32} {rest : List Reply} (hne : bs.isEmpty = false)
    (ha : assemblyOk s = true) (h : s.replies = .fail e :: rest) :
    sendData bs s = (some (dataFrameFailed s.seq e),
      { s with replies := rest, allocs := allocsAfter s
               trace := s.trace ++ [failIn s (.transmit s.devId (0x40 :: bs) (busTimeout s)) e] }) := by
  unfold sendData
  rw [if_neg (by simp [hne]), if_pos (allocOk_of_assemblyOk ha), dropAlloc_of_assemblyOk ha, sendFrame, transmit,
    requestAck_cons (s := { s with allocs := allocsAfter s }) h]
  rfl

/-- A data frame that is not assembled, by what stands in State: nothing is requested. -/
theorem sendData_noAlloc_cons {s : State} {bs : List Byte} {as : List Bool} (hne : bs.isEmpty = false)
    (hm : s.params.allocMayFail = true) (ha : s.allocs = false :: as) :
    sendData bs s = (some (outOfMemory s.seq), { s with allocs := as }) := by
  unfold sendData
  rw [if_neg (by simp [hne])]
  simp [allocOk, dropAlloc, hm, ha]

/-! ## UPDATE_SCREEN (42_bus_protocol.md R180 to R186) -/

theorem windowBytes_eq_window (s : State) : windowBytes s = window s := rfl

theorem length_window (s : State) : (window s).length = 6 := rfl

/-- A prefix of the command frames is a prefix of all seven frames. -/
theorem take_screenFrames (s : State) {n : Nat} (h : n ≤ 6) :
    (screenFrames s).take n = ((window s).take n).map (commandFrame s s.devId) := by
  unfold screenFrames
  rw [List.take_append_of_le_length (by simpa [length_window] using h), List.map_take]

theorem dataFrame_eq (s : State) : dataFrame s = .transmit s.devId (0x40 :: fbBytes s.fb) (busTimeout s) := rfl

/-- Everything UPDATE_SCREEN can do in a READY session. -/
theorem updateScreen_cases (s : State) :
    ∃ u n, SameButBus s u ∧ Grew s u ((screenFrames s).take n) ∧ 1 ≤ n ∧ n ≤ 7 ∧
      ((n = 7 ∧ updateScreen s = complete { u with panelWinKnown := true }) ∨
       (∃ k b e, n = k + 1 ∧ (window s)[k]? = some b ∧
          updateScreen s = finish (commandFrameFailed b (BitVec.ofNat 5 k) e) { u with panelWinKnown := false }) ∨
       (n = 6 ∧ updateScreen s = finish (outOfMemory 6) { u with panelWinKnown := false }) ∨
       (n = 7 ∧ ∃ e, updateScreen s = finish (dataFrameFailed 6 e) { u with panelWinKnown := false })) := by
  obtain ⟨hsame, -, n, hn, hgrew, hres⟩ := sendCommands_cases (windowBytes s) { s with seq := 0 }
  rw [windowBytes_eq_window] at *
  rw [length_window] at hn
  have hsame' : SameButBus s (sendCommands (window s) { s with seq := 0 }).2 := SameButBus.trans (t := { s with seq := 0 }) rfl hsame
  have hgrew' : Grew s (sendCommands (window s) { s with seq := 0 }).2 ((screenFrames s).take n) := by
    rw [take_screenFrames s hn]; exact hgrew
  rcases hp : sendCommands (window s) { s with seq := 0 } with ⟨r, t⟩
  rw [hp] at hsame' hgrew' hres
  simp only at hsame' hgrew' hres
  rcases hres with ⟨rfl, hn6, hseq⟩ | ⟨k, b, e, hk, hb, rfl⟩
  · rw [length_window] at hn6
    subst hn6
    have hseq6 : t.seq = 6 := by rw [hseq]; rfl
    have hscreen : sendScreen s = sendData (fbBytes s.fb) t := by
      unfold sendScreen
      rw [windowBytes_eq_window, hp]
    obtain ⟨hd, hcase⟩ := sendData_cases (fbBytes_isEmpty s.fb) t
    rcases hq : sendData (fbBytes s.fb) t with ⟨r', u⟩
    rw [hq] at hd hcase
    simp only at hd hcase
    refine ⟨u, ?_⟩
    rcases hcase with ⟨-, rfl, htr⟩ | ⟨-, hg, hr⟩
    · exact ⟨6, hsame'.trans hd, hgrew'.of_trace_eq htr, by omega, by omega, .inr (.inr (.inl ⟨rfl, by
        simp [updateScreen, hscreen, hq, hseq6]⟩))⟩
    · have hall : Grew s u ((screenFrames s).take 7) := by
        have h1 : (screenFrames s).take 7 = (screenFrames s).take 6 ++ [dataFrame s] := by
          rw [take_screenFrames s (Nat.le_refl 6)]
          rfl
        have hdev : t.devId = s.devId := hsame'.fields.2.2.2.2.2.1
        have hpar : t.params = s.params := hsame'.fields.2.2.2.2.2.2.2.2.2.2.2.2.1
        have h2 : dataFrame s = .transmit t.devId (0x40 :: fbBytes s.fb) (busTimeout t) := by
          simp [dataFrame_eq, busTimeout, hdev, hpar]
        rw [h1, h2]
        exact hgrew'.trans hg hsame'.fields.2.2.2.2.2.2.2.2.2.2.2.2.2.2.2
      rcases hr with rfl | ⟨e, rfl⟩
      · exact ⟨7, hsame'.trans hd, hall, by omega, by omega, .inl ⟨rfl, by simp [updateScreen, hscreen, hq]⟩⟩
      · exact ⟨7, hsame'.trans hd, hall, by omega, by omega, .inr (.inr (.inr ⟨rfl, e, by
          simp [updateScreen, hscreen, hq, hseq6]⟩))⟩
  · have hscreen : sendScreen s = (some (commandFrameFailed b (BitVec.ofNat 5 k) e), t) := by
      unfold sendScreen
      rw [windowBytes_eq_window, hp]
      simp
    exact ⟨t, n, hsame', hgrew', by omega, by omega, .inr (.inl ⟨k, b, e, hk, hb, by
      simp [updateScreen, hscreen]⟩)⟩

end Sys2Proof.Machine
end

