-- ==== Sys2Proof/Laws/Encoding.lean ====
section
/-! SUPPORT. The laws of the encoding: the fields of a packed word, a word from its own bytes, and what the
port gives for the bytes of a command. -/

namespace Sys2Proof

/-! ## Fields of a packed word -/

@[simp] theorem opcodeOf_packWord (op a b c d : Byte) (e : BitVec 24) : opcodeOf (packWord op a b c d e) = op := by
  ext i hi
  simp only [opcodeOf, packWord, BitVec.getElem_extractLsb', BitVec.getLsbD_append]
  interval_cases i <;> simp

@[simp] theorem fieldA_packWord (op a b c d : Byte) (e : BitVec 24) : fieldA (packWord op a b c d e) = a := by
  ext i hi
  simp only [fieldA, packWord, BitVec.getElem_extractLsb', BitVec.getLsbD_append]
  interval_cases i <;> simp

@[simp] theorem fieldB_packWord (op a b c d : Byte) (e : BitVec 24) : fieldB (packWord op a b c d e) = b := by
  ext i hi
  simp only [fieldB, packWord, BitVec.getElem_extractLsb', BitVec.getLsbD_append]
  interval_cases i <;> simp

@[simp] theorem fieldC_packWord (op a b c d : Byte) (e : BitVec 24) : fieldC (packWord op a b c d e) = c := by
  ext i hi
  simp only [fieldC, packWord, BitVec.getElem_extractLsb', BitVec.getLsbD_append]
  interval_cases i <;> simp

@[simp] theorem fieldD_packWord (op a b c d : Byte) (e : BitVec 24) : fieldD (packWord op a b c d e) = d := by
  ext i hi
  simp only [fieldD, packWord, BitVec.getElem_extractLsb', BitVec.getLsbD_append]
  interval_cases i <;> simp

@[simp] theorem fieldLen_packWord (op a b c d : Byte) (e : BitVec 24) :
    fieldLen (packWord op a b c d e) = e.setWidth 16 := by
  ext i hi
  simp only [fieldLen, packWord, BitVec.getElem_extractLsb', BitVec.getLsbD_append, BitVec.getElem_setWidth]
  interval_cases i <;> simp

@[simp] theorem fieldHandle_packWord (op a b c d : Byte) (e : BitVec 24) :
    fieldHandle (packWord op a b c d e) = d ++ e := by
  ext i hi
  rw [← BitVec.getLsbD_eq_getElem, ← BitVec.getLsbD_eq_getElem]
  simp only [fieldHandle, packWord, BitVec.getLsbD_extractLsb', BitVec.getLsbD_append]
  interval_cases i <;> simp

@[simp] theorem bit32_packWord (op a b c d : Byte) (e : BitVec 24) :
    bit32 (packWord op a b c d e) = c.getLsbD 0 := by
  simp only [bit32, packWord, BitVec.getLsbD_append]
  simp

@[simp] theorem flagByte_bit (on : Bool) : (flagByte on).getLsbD 0 = on := by cases on <;> rfl

/-! ## Masks (30_encoding.md R85) -/

/-- A word is its opcode and its 56 lower bits. -/
theorem word_ext {w v : Word} (h : opcodeOf w = opcodeOf v) (h2 : ∀ i < 56, w.getLsbD i = v.getLsbD i) : w = v := by
  ext i hi
  rw [← BitVec.getLsbD_eq_getElem, ← BitVec.getLsbD_eq_getElem]
  by_cases h56 : i < 56
  · exact h2 i h56
  · have := congrArg (fun b => BitVec.getLsbD b (i - 56)) h
    have e : 56 + (i - 56) = i := by omega
    have d : i - 56 < 8 := by omega
    simpa [opcodeOf, e, d] using this

/-- Every mask holds the eight opcode bits. -/
theorem mask_opcode_bits (f : Format) : ∀ i, 56 ≤ i → i < 64 → f.mask.getLsbD i = true := by
  intro i h1 h2
  interval_cases i <;> cases f <;> rfl

/-- A word matches its opcode under a mask exactly where the mask's lower bits are all 0 in it. -/
theorem masked_eq_matchOf_iff (w : Word) {m : Word} (hm : ∀ i, 56 ≤ i → i < 64 → m.getLsbD i = true) :
    w &&& m = matchOf (opcodeOf w) ↔ ∀ i < 56, m.getLsbD i = true → w.getLsbD i = false := by
  constructor
  · intro h i hi hmi
    have := congrArg (fun v => BitVec.getLsbD v i) h
    simp only [BitVec.getLsbD_and, matchOf, opcodeOf, BitVec.getLsbD_shiftLeft, BitVec.getLsbD_setWidth,
      BitVec.getLsbD_extractLsb'] at this
    simpa [hmi, hi] using this
  · intro h
    ext i hi
    rw [← BitVec.getLsbD_eq_getElem, ← BitVec.getLsbD_eq_getElem]
    simp only [BitVec.getLsbD_and, matchOf, opcodeOf, BitVec.getLsbD_shiftLeft, BitVec.getLsbD_setWidth,
      BitVec.getLsbD_extractLsb']
    by_cases h56 : i < 56
    · have := h i h56
      cases hmi : m.getLsbD i <;> simp [h56, hmi] at this ⊢
      exact this
    · have hmi := hm i (by omega) hi
      have e : 56 + (i - 56) = i := by omega
      have d1 : i - 56 < 8 := by omega
      have d2 : i - 56 < 64 := by omega
      simp [h56, hmi, hi, e, d1, d2]

/-- A handle from the two fields that carry it. -/
theorem handle_append (h : Word32) : h.extractLsb' 24 8 ++ h.extractLsb' 0 24 = h := by
  ext i hi
  rw [← BitVec.getLsbD_eq_getElem, ← BitVec.getLsbD_eq_getElem]
  simp only [BitVec.getLsbD_append, BitVec.getLsbD_extractLsb']
  interval_cases i <;> simp

/-! ## A word and its bytes (20_memory.md R62) -/

@[simp] theorem length_bytesOfWord (w : Word) : (bytesOfWord w).length = 8 := rfl

/-- The bytes of a word, put together again, give the word. -/
theorem wordOfBytes_bytesOfWord (w : Word) :
    wordOfBytes (w.extractLsb' 56 8) (w.extractLsb' 48 8) (w.extractLsb' 40 8) (w.extractLsb' 32 8)
      (w.extractLsb' 24 8) (w.extractLsb' 16 8) (w.extractLsb' 8 8) (w.extractLsb' 0 8) = w := by
  ext i hi
  rw [← BitVec.getLsbD_eq_getElem, ← BitVec.getLsbD_eq_getElem]
  simp only [wordOfBytes, BitVec.getLsbD_append, BitVec.getLsbD_extractLsb']
  interval_cases i <;> simp

/-! ## Taking a command from the port (30_encoding.md R88, R89) -/

theorem hasBytes_eq : ∀ (n : Nat) (bs : List Byte), hasBytes n bs = decide (n ≤ bs.length)
  | 0, _ => by simp [hasBytes]
  | _ + 1, [] => by simp [hasBytes]
  | n + 1, _ :: bs => by simp [hasBytes, hasBytes_eq n bs]

/-- The port gives back a word, its payload and what follows them. -/
theorem fetchCommand_append (w : Word) (p rest : List Byte) (hp : p.length = payloadLength w) :
    fetchCommand (bytesOfWord w ++ p ++ rest) = some ⟨w, p, rest⟩ := by
  simp only [bytesOfWord, List.cons_append, List.nil_append, fetchCommand, wordOfBytes_bytesOfWord, hasBytes_eq,
    List.length_append, ← hp, Nat.le_add_right, decide_true, if_true, List.take_left, List.drop_left]

/-- Whatever the port gives, the payload has the length the word announces. -/
theorem fetchCommand_payload_length {bs : List Byte} {c : Fetched} (h : fetchCommand bs = some c) :
    c.payload.length = payloadLength c.word := by
  unfold fetchCommand at h
  split at h
  · simp only [hasBytes_eq] at h
    split at h
    · rename_i hl
      cases h
      simpa using hl
    · cases h
  · cases h

end Sys2Proof
end

