-- ==== Sys2Proof/Laws/Memory.lean ====
section
/-! SUPPORT. The laws of the framebuffer: what a read gives after a write, that every write keeps the
canonical form, and that canonical memories with the same bytes are equal. -/

namespace Sys2Proof.Machine

open Config

/-! ## Reading -/

@[simp] theorem memRead_zeroMemory (a : Nat) : memRead zeroMemory a = 0 := rfl

/-- Nothing below the lower bound of a canonical memory is listed. -/
theorem memRead_of_lt_wfFrom : ∀ {m : Memory} {lo a : Nat}, Memory.wfFrom lo m = true → a < lo → memRead m a = 0
  | [], _, _, _, _ => rfl
  | (b, v) :: m, lo, a, h, ha => by
    simp only [Memory.wfFrom, Bool.and_eq_true, decide_eq_true_eq] at h
    have hne : a ≠ b := by omega
    simp only [memRead, hne, if_false]
    exact memRead_of_lt_wfFrom h.2 (by omega)

/-- Nothing from `FB_SIZE` on is listed in a canonical memory. -/
theorem memRead_of_size_le : ∀ {m : Memory} {lo a : Nat}, Memory.wfFrom lo m = true → FB_SIZE ≤ a → memRead m a = 0
  | [], _, _, _, _ => rfl
  | (b, v) :: m, lo, a, h, ha => by
    simp only [Memory.wfFrom, Bool.and_eq_true, decide_eq_true_eq] at h
    have hne : a ≠ b := by omega
    simp only [memRead, hne, if_false]
    exact memRead_of_size_le h.2 ha

/-- A lower bound of a canonical memory may be lowered. -/
theorem wfFrom_mono {m : Memory} {lo lo' : Nat} (h : Memory.wfFrom lo m = true) (hle : lo' ≤ lo) :
    Memory.wfFrom lo' m = true := by
  cases m with
  | nil => rfl
  | cons c m =>
    simp only [Memory.wfFrom, Bool.and_eq_true, decide_eq_true_eq] at h ⊢
    exact ⟨⟨⟨by omega, h.1.1.2⟩, h.1.2⟩, h.2⟩

/-! ## Writing -/

theorem memRead_memWrite_from : ∀ {m : Memory} {lo : Nat}, Memory.wfFrom lo m = true → ∀ (i : Nat) (v : Byte) (a : Nat),
    memRead (memWrite m i v) a = if a = i then v else memRead m a
  | [], _, _, i, v, a => by
    by_cases hv : v = 0#8 <;> by_cases ha : a = i <;> simp [memWrite, memRead, hv, ha]
  | (b, u) :: m, lo, h, i, v, a => by
    simp only [Memory.wfFrom, Bool.and_eq_true, decide_eq_true_eq] at h
    have ih := memRead_memWrite_from h.2 i v a
    have below : ∀ {x}, x ≤ b → memRead m x = 0 := fun hx => memRead_of_lt_wfFrom h.2 (by omega)
    unfold memWrite
    rcases lt_trichotomy i b with hib | hib | hib
    · by_cases ha : a = i
      · subst ha
        by_cases hv : v = 0#8
        · simp [hib, hv, memRead, Nat.ne_of_lt hib, below (Nat.le_of_lt hib)]
        · simp [hib, hv, memRead]
      · by_cases hv : v = 0#8 <;> simp [hib, hv, memRead, ha]
    · subst hib
      by_cases ha : a = i
      · subst ha
        by_cases hv : v = 0#8 <;> simp [hv, memRead, below (Nat.le_refl a)]
      · by_cases hv : v = 0#8 <;> simp [hv, memRead, ha]
    · have h1 : ¬ i < b := by omega
      have h2 : i ≠ b := by omega
      simp only [h1, h2, if_false, memRead, ih]
      by_cases hab : a = b
      · have : a ≠ i := by omega
        simp [hab, Ne.symm h2]
      · simp [hab]

/-- A read after a write: the value written at its address, and the old byte everywhere else. -/
theorem memRead_memWrite {m : Memory} (h : m.wf = true) (i : Nat) (v : Byte) (a : Nat) :
    memRead (memWrite m i v) a = if a = i then v else memRead m a := memRead_memWrite_from h i v a

theorem wfFrom_memWrite : ∀ {m : Memory} {lo : Nat}, Memory.wfFrom lo m = true → ∀ {i : Nat} (v : Byte), lo ≤ i → i < FB_SIZE →
    Memory.wfFrom lo (memWrite m i v) = true
  | [], lo, _, i, v, hlo, hi => by
    by_cases hv : v = 0#8 <;> simp [memWrite, Memory.wfFrom, hv, hlo, hi]
  | (b, u) :: m, lo, h, i, v, hlo, hi => by
    have h0 := h
    simp only [Memory.wfFrom, Bool.and_eq_true, decide_eq_true_eq] at h
    unfold memWrite
    rcases lt_trichotomy i b with hib | hib | hib
    · by_cases hv : v = 0#8
      · simpa [hib, hv] using h0
      · have : Memory.wfFrom (i + 1) ((b, u) :: m) = true := by
          simp only [Memory.wfFrom, Bool.and_eq_true, decide_eq_true_eq]
          exact ⟨⟨⟨by omega, h.1.1.2⟩, h.1.2⟩, h.2⟩
        simp only [Memory.wfFrom, Bool.and_eq_true, decide_eq_true_eq] at this
        simp [hib, hv, Memory.wfFrom, hlo, hi] at this ⊢
        exact this
    · subst hib
      by_cases hv : v = 0#8
      · simp only [lt_irrefl, if_false, if_true, hv]
        exact wfFrom_mono h.2 (by omega)
      · simp [hv, Memory.wfFrom, hlo, hi, h.2]
    · have h1 : ¬ i < b := by omega
      have h2 : i ≠ b := by omega
      simp only [h1, h2, if_false, Memory.wfFrom, Bool.and_eq_true, decide_eq_true_eq]
      exact ⟨⟨⟨h.1.1.1, h.1.1.2⟩, h.1.2⟩, wfFrom_memWrite h.2 v (by omega) hi⟩

/-- A write inside the framebuffer keeps the canonical form. -/
theorem wf_memWrite {m : Memory} (h : m.wf = true) {i : Nat} (v : Byte) (hi : i < FB_SIZE) :
    (memWrite m i v).wf = true := wfFrom_memWrite h v (Nat.zero_le i) hi

@[simp] theorem wf_zeroMemory : Memory.wf zeroMemory = true := rfl

/-! ## Clearing a list of addresses -/

theorem wf_memClear : ∀ (is : List Nat) {m : Memory}, m.wf = true → (∀ i ∈ is, i < FB_SIZE) → (memClear m is).wf = true
  | [], _, h, _ => h
  | i :: is, m, h, hi => by
    have hw := wf_memWrite h 0 (hi i (by simp))
    exact wf_memClear is hw fun j hj => hi j (by simp [hj])

/-- Clearing writes 0x00 at exactly the listed addresses. -/
theorem memRead_memClear : ∀ (is : List Nat) {m : Memory}, m.wf = true → (∀ i ∈ is, i < FB_SIZE) → ∀ a,
    memRead (memClear m is) a = if a ∈ is then 0 else memRead m a
  | [], _, _, _, _ => by simp [memClear]
  | i :: is, m, h, hi, a => by
    have hw := wf_memWrite h 0 (hi i (by simp))
    have ih := memRead_memClear is hw (fun j hj => hi j (by simp [hj])) a
    have hstep : memClear m (i :: is) = memClear (memWrite m i 0) is := rfl
    rw [hstep, ih, memRead_memWrite h]
    by_cases h1 : a ∈ is <;> by_cases h2 : a = i <;> simp [h1, h2]

/-! ## Equality -/

theorem memory_ext_from : ∀ {m n : Memory} {lo : Nat}, Memory.wfFrom lo m = true → Memory.wfFrom lo n = true →
    (∀ a, memRead m a = memRead n a) → m = n
  | [], [], _, _, _, _ => rfl
  | [], (b, v) :: n, _, _, hn, h => by
    simp only [Memory.wfFrom, Bool.and_eq_true, decide_eq_true_eq] at hn
    have := h b
    simp [memRead] at this
    simp [← this] at hn
  | (b, v) :: m, [], _, hm, _, h => by
    simp only [Memory.wfFrom, Bool.and_eq_true, decide_eq_true_eq] at hm
    have := h b
    simp [memRead] at this
    simp [this] at hm
  | (b, v) :: m, (c, u) :: n, lo, hm, hn, h => by
    simp only [Memory.wfFrom, Bool.and_eq_true, decide_eq_true_eq, bne_iff_ne] at hm hn
    have hbc : b = c := by
      rcases lt_trichotomy b c with hlt | heq | hlt
      · have := h b
        have h0 : memRead n b = 0 := memRead_of_lt_wfFrom hn.2 (by omega)
        simp [memRead, Nat.ne_of_lt hlt, h0] at this
        exact absurd this hm.1.2
      · exact heq
      · have := h c
        have h0 : memRead m c = 0 := memRead_of_lt_wfFrom hm.2 (by omega)
        simp [memRead, Nat.ne_of_lt hlt, h0] at this
        exact absurd this.symm hn.1.2
    subst hbc
    have hvu : v = u := by have := h b; simpa [memRead] using this
    subst hvu
    have : m = n := memory_ext_from hm.2 hn.2 fun a => by
      by_cases hab : a = b
      · subst hab
        rw [memRead_of_lt_wfFrom hm.2 (Nat.lt_succ_self a), memRead_of_lt_wfFrom hn.2 (Nat.lt_succ_self a)]
      · have := h a
        simpa [memRead, hab] using this
    rw [this]

/-- Canonical memories with the same bytes are the same list. -/
theorem memory_ext {m n : Memory} (hm : m.wf = true) (hn : n.wf = true) (h : ∀ a, memRead m a = memRead n a) :
    m = n := memory_ext_from hm hn h

/-! ## A framebuffer of free bytes -/

theorem wfFrom_filtered (f : Nat → Byte) : ∀ (n lo : Nat), lo + n ≤ FB_SIZE →
    Memory.wfFrom lo (((List.range' lo n).map fun i => (i, f i)).filter fun c => c.2 != 0) = true
  | 0, _, _ => rfl
  | n + 1, lo, h => by
    have ih := wfFrom_filtered f n (lo + 1) (by omega)
    simp only [List.range'_succ, List.map_cons]
    by_cases hf : f lo = 0#8
    · rw [List.filter_cons_of_neg (by simp [hf])]
      exact wfFrom_mono ih (Nat.le_succ lo)
    · rw [List.filter_cons_of_pos (by simp [hf])]
      simp only [Memory.wfFrom, Bool.and_eq_true, decide_eq_true_eq]
      exact ⟨⟨⟨Nat.le_refl lo, by omega⟩, by simp [hf]⟩, ih⟩

/-- The framebuffer after a block reset has the canonical form, whatever its free bytes are. -/
theorem wf_freeFramebuffer (n : Nat) : (freeFramebuffer n).wf = true := by
  have := wfFrom_filtered (freeFbByte n) FB_SIZE 0 (Nat.le_refl _)
  simpa [freeFramebuffer, Memory.wf, List.range_eq_range'] using this

end Sys2Proof.Machine
end

