-- ==== Sys2Proof/Laws/Framebuffer.lean ====
section
/-! SUPPORT. What the framebuffer primitives can do (41_framebuffer.md): their bytes, and that they keep the
canonical form. -/

namespace Sys2Proof.Machine

open Config Safety

/-! ## Places -/

theorem columnIndex_lt {x p : Nat} (hx : x < W) (hp : p < PAGES) : columnIndex x p < FB_SIZE := by
  simp only [columnIndex, W, PAGES, FB_SIZE] at *; omega

theorem pixelInRange_iff (x y : Nat) : pixelInRange x y = true ↔ x < 128 ∧ y < 64 := by
  simp [pixelInRange, W, H]

theorem pixelIndex_lt {x y : Nat} (h : pixelInRange x y = true) : pixelIndex x y < FB_SIZE := by
  rw [pixelInRange_iff] at h
  exact columnIndex_lt h.1 (by simp only [PAGES]; omega)

theorem areaValid_iff (x pg wd ht : Nat) :
    areaValid x pg wd ht = true ↔ 0 < wd ∧ 0 < ht ∧ x + wd ≤ 128 ∧ pg + ht ≤ 8 := by
  simp [areaValid, W, PAGES, and_assoc]

/-- The indices of a rectangle that fits are those of its columns and pages. -/
theorem mem_areaIndices {x pg wd ht : Nat} (h : areaValid x pg wd ht = true) (a : Nat) :
    a ∈ areaIndices x pg wd ht ↔
      x ≤ indexColumn a ∧ indexColumn a < x + wd ∧ pg ≤ indexPage a ∧ indexPage a < pg + ht := by
  rw [areaValid_iff] at h
  simp only [areaIndices, List.mem_flatMap, List.mem_map, List.mem_range, columnIndex, indexColumn, indexPage, W]
  constructor
  · rintro ⟨p, hp, c, hc, rfl⟩; omega
  · rintro ⟨h1, h2, h3, h4⟩
    exact ⟨a / 128 - pg, by omega, a % 128 - x, by omega, by omega⟩

theorem areaIndices_lt {x pg wd ht : Nat} (h : areaValid x pg wd ht = true) :
    ∀ a ∈ areaIndices x pg wd ht, a < FB_SIZE := by
  intro a ha
  rw [mem_areaIndices h] at ha
  rw [areaValid_iff] at h
  simp only [indexPage, W, FB_SIZE] at *
  omega

/-! ## Pixels -/

/-- Bit `j` of a byte after its bit `b` was set to `on`. -/
theorem getLsbD_setBit (v : Byte) {b : Nat} (hb : b < 8) (on : Bool) (j : Nat) :
    (setBit v b on).getLsbD j = if j = b then on else v.getLsbD j := by
  have hm : ∀ i, (bitMask b).getLsbD i = decide (i = b) := fun i => by
    simp only [bitMask, BitVec.getLsbD_shiftLeft, BitVec.getLsbD_one]
    by_cases h : i = b <;> simp [h, hb]
    omega
  cases on <;> by_cases h : j = b <;> simp [setBit, hm, h, BitVec.getLsbD_and, BitVec.getLsbD_or, BitVec.getLsbD_not]
  intro hv
  exact BitVec.lt_of_getLsbD hv

theorem wf_pixelMem {m : Memory} (h : m.wf = true) (x y : Nat) (on : Bool) : (pixelMem m x y on).wf = true := by
  unfold pixelMem
  split
  · exact wf_memWrite h _ (pixelIndex_lt ‹_›)
  · exact h

/-- The bytes after a pixel write. -/
theorem memRead_pixelMem {m : Memory} (h : m.wf = true) (x y : Nat) (on : Bool) (a : Nat) :
    memRead (pixelMem m x y on) a =
      if pixelInRange x y = true ∧ a = pixelIndex x y then setBit (memRead m a) (pixelBit y) on else memRead m a := by
  unfold pixelMem
  split
  · rename_i hr
    rw [memRead_memWrite h]
    by_cases ha : a = pixelIndex x y <;> simp [ha, hr]
  · rename_i hr
    simp [hr]

/-! ## Glyphs -/

theorem glyphIndex_val (c : Byte) :
    (glyphIndex c).val = if 32 ≤ c.toNat ∧ c.toNat ≤ 126 then c.toNat - 32 else 31 := by
  unfold glyphIndex
  split <;> simp_all [GLYPH_FIRST, GLYPH_LAST]

theorem glyphIndex_of_outside {c : Byte} (h : c.toNat < 32 ∨ 126 < c.toNat) : glyphIndex c = glyphIndex 0x3F := by
  apply Fin.ext
  rw [glyphIndex_val, glyphIndex_val]
  have : ¬ (32 ≤ c.toNat ∧ c.toNat ≤ 126) := by omega
  simp [this]

theorem wf_glyphColumn (rom : Vector Glyph 95) (g : Fin GLYPH_COUNT) (x : Nat) {p : Nat} (hp : p < PAGES) {m : Memory}
    (h : m.wf = true) (k : Fin GLYPH_W) : (glyphColumn rom g x p m k).wf = true := by
  unfold glyphColumn
  split
  · exact wf_memWrite h _ (columnIndex_lt ‹_› hp)
  · exact h

/-- The bytes after one column of a glyph. -/
theorem memRead_glyphColumn (rom : Vector Glyph 95) (g : Fin GLYPH_COUNT) (x p : Nat) {m : Memory}
    (h : m.wf = true) (k : Fin GLYPH_W) (a : Nat) :
    memRead (glyphColumn rom g x p m k) a =
      if x + k.val < 128 ∧ a = columnIndex (x + k.val) p then glyphRead rom g k else memRead m a := by
  unfold glyphColumn
  by_cases hk : x + k.val < W
  · rw [if_pos hk, memRead_memWrite h]
    simp only [W] at hk
    simp [hk]
  · rw [if_neg hk]
    simp only [W] at hk
    simp [hk]

theorem wf_glyphMem (rom : Vector Glyph 95) {m : Memory} (h : m.wf = true) (c : Byte) (x : Nat) {p : Nat}
    (hp : p < PAGES) : (glyphMem rom m c x p).wf = true := by
  simp only [glyphMem, List.foldl]
  repeat' apply wf_glyphColumn _ _ _ hp
  exact h

/-- The bytes after a glyph: column `k` of the glyph where it lands on the screen, and the old byte elsewhere. -/
theorem memRead_glyphMem (rom : Vector Glyph 95) {m : Memory} (h : m.wf = true) (c : Byte) (x : Nat) {p : Nat}
    (hp : p < PAGES) (a : Nat) :
    (∀ k : Fin GLYPH_W, x + k.val < 128 → a = columnIndex (x + k.val) p →
      memRead (glyphMem rom m c x p) a = glyphRead rom (glyphIndex c) k) ∧
    ((∀ k : Fin GLYPH_W, x + k.val < 128 → a ≠ columnIndex (x + k.val) p) →
      memRead (glyphMem rom m c x p) a = memRead m a) := by
  have w1 := wf_glyphColumn rom (glyphIndex c) x hp h 0
  have w2 := wf_glyphColumn rom (glyphIndex c) x hp w1 1
  have w3 := wf_glyphColumn rom (glyphIndex c) x hp w2 2
  have w4 := wf_glyphColumn rom (glyphIndex c) x hp w3 3
  have key : memRead (glyphMem rom m c x p) a =
      if x + 4 < 128 ∧ a = x + 4 + p * 128 then glyphRead rom (glyphIndex c) ⟨4, by decide⟩
      else if x + 3 < 128 ∧ a = x + 3 + p * 128 then glyphRead rom (glyphIndex c) ⟨3, by decide⟩
      else if x + 2 < 128 ∧ a = x + 2 + p * 128 then glyphRead rom (glyphIndex c) ⟨2, by decide⟩
      else if x + 1 < 128 ∧ a = x + 1 + p * 128 then glyphRead rom (glyphIndex c) ⟨1, by decide⟩
      else if x + 0 < 128 ∧ a = x + 0 + p * 128 then glyphRead rom (glyphIndex c) ⟨0, by decide⟩
      else memRead m a := by
    simp only [glyphMem, List.foldl]
    rw [memRead_glyphColumn _ _ _ _ w4, memRead_glyphColumn _ _ _ _ w3, memRead_glyphColumn _ _ _ _ w2,
      memRead_glyphColumn _ _ _ _ w1, memRead_glyphColumn _ _ _ _ h]
    rfl
  constructor
  · rintro ⟨k, hk5⟩ hk ha
    have ha' : a = x + k + p * 128 := ha
    have hk' : x + k < 128 := hk
    rw [key]
    have : k = 0 ∨ k = 1 ∨ k = 2 ∨ k = 3 ∨ k = 4 := by simp only [GLYPH_W] at hk5; omega
    rcases this with rfl | rfl | rfl | rfl | rfl
    · rw [if_neg (by omega), if_neg (by omega), if_neg (by omega), if_neg (by omega), if_pos (by omega)]
    · rw [if_neg (by omega), if_neg (by omega), if_neg (by omega), if_pos (by omega)]
    · rw [if_neg (by omega), if_neg (by omega), if_pos (by omega)]
    · rw [if_neg (by omega), if_pos (by omega)]
    · rw [if_pos (by omega)]
  · intro hn
    have h0 : x + 0 < 128 → a ≠ x + 0 + p * 128 := hn ⟨0, by decide⟩
    have h1 : x + 1 < 128 → a ≠ x + 1 + p * 128 := hn ⟨1, by decide⟩
    have h2 : x + 2 < 128 → a ≠ x + 2 + p * 128 := hn ⟨2, by decide⟩
    have h3 : x + 3 < 128 → a ≠ x + 3 + p * 128 := hn ⟨3, by decide⟩
    have h4 : x + 4 < 128 → a ≠ x + 4 + p * 128 := hn ⟨4, by decide⟩
    rw [key, if_neg (by omega), if_neg (by omega), if_neg (by omega), if_neg (by omega), if_neg (by omega)]

/-! ## What drawing can change -/

/-- Two states are the same but for what drawing changes. -/
def SameButDrawing (s t : State) : Prop :=
  t = { s with fb := t.fb, curX := t.curX, curY := t.curY, diag := t.diag }

theorem SameButDrawing.trans {s t u : State} (h : SameButDrawing s t) (g : SameButDrawing t u) : SameButDrawing s u := by
  unfold SameButDrawing at *
  rw [g, h]

theorem drawGlyph_same (c : Byte) (x p : Nat) (s : State) : SameButDrawing s (drawGlyph c x p s) := by
  unfold drawGlyph; split <;> rfl

theorem drawAdvance_same (c : Byte) (s : State) : SameButDrawing s (drawAdvance c s) := by
  unfold drawAdvance drawGlyph; split <;> rfl

theorem wrapLine_same (x : Nat) (s : State) : SameButDrawing s (wrapLine x s) := rfl

theorem layoutWalk_same (x : Nat) : ∀ (str : List Byte) (s : State), SameButDrawing s (layoutWalk x str s)
  | [], _ => rfl
  | c :: cs, s => by
    unfold layoutWalk
    split
    · split
      · exact wrapLine_same x s
      · exact ((wrapLine_same x s).trans (drawAdvance_same c _)).trans (layoutWalk_same x cs _)
    · exact (drawAdvance_same c s).trans (layoutWalk_same x cs _)

theorem layoutText_same (x p : Nat) (str : List Byte) (s : State) : SameButDrawing s (layoutText x p str s) :=
  SameButDrawing.trans (t := { s with curX := x, curY := p }) rfl (layoutWalk_same x str _)

theorem wf_drawGlyph {s : State} (h : s.fb.wf = true) (c : Byte) (x p : Nat) : (drawGlyph c x p s).fb.wf = true := by
  unfold drawGlyph
  split
  · exact h
  · exact wf_glyphMem _ h c x (by omega)

theorem wf_drawAdvance {s : State} (h : s.fb.wf = true) (c : Byte) : (drawAdvance c s).fb.wf = true :=
  wf_drawGlyph h c s.curX s.curY

theorem wf_layoutWalk (x : Nat) : ∀ (str : List Byte) {s : State}, s.fb.wf = true → (layoutWalk x str s).fb.wf = true
  | [], _, h => h
  | c :: cs, s, h => by
    unfold layoutWalk
    split
    · split
      · exact h
      · exact wf_layoutWalk x cs (wf_drawAdvance (s := wrapLine x s) h c)
    · exact wf_layoutWalk x cs (wf_drawAdvance h c)

theorem wf_layoutText {s : State} (h : s.fb.wf = true) (x p : Nat) (str : List Byte) :
    (layoutText x p str s).fb.wf = true := wf_layoutWalk x str h

/-- The canonical form is kept by CLEAR_AREA's writes. -/
theorem wf_clearedArea {m : Memory} (h : m.wf = true) {x pg wd ht : Nat} (hv : areaValid x pg wd ht = true) :
    (memClear m (areaIndices x pg wd ht)).wf = true := wf_memClear _ h (areaIndices_lt hv)

end Sys2Proof.Machine
end

