-- ==== Sys2Proof/Laws/Session.lean ====
section
/-! SUPPORT. What the session commands can do (43_session.md), for every answer of the transport. -/

namespace Sys2Proof.Machine

open Config Safety

/-! ## Configuring the panel (42_bus_protocol.md R178, R179) -/

theorem length_initSeq (s : State) : s.initSeq.toList.length = 26 := by simp

/-- Everything the initialisation sequence can do, with what the command makes of it. -/
theorem configurePanel_cases (undo : State → State) (s : State) :
    ∃ u n, SameButBus { s with fb := zeroMemory, panelWinKnown := false } u ∧
      Grew s u ((initFrames s s.devId).take n) ∧ 1 ≤ n ∧ n ≤ 26 ∧
      ((n = 26 ∧ configurePanel undo s = complete { u with session := .ready }) ∨
       (∃ k b e, n = k + 1 ∧ s.initSeq.toList[k]? = some b ∧
          configurePanel undo s = finish (commandFrameFailed b (BitVec.ofNat 5 k) e) (undo u))) := by
  obtain ⟨hsame, -, n, hn, hgrew, hres⟩ :=
    sendCommands_cases s.initSeq.toList { s with fb := zeroMemory, panelWinKnown := false, seq := 0 }
  rw [length_initSeq] at *
  have hsame' : SameButBus { s with fb := zeroMemory, panelWinKnown := false }
      (sendCommands s.initSeq.toList { s with fb := zeroMemory, panelWinKnown := false, seq := 0 }).2 :=
    SameButBus.trans (t := { s with fb := zeroMemory, panelWinKnown := false, seq := 0 }) rfl hsame
  have hgrew' : Grew s (sendCommands s.initSeq.toList { s with fb := zeroMemory, panelWinKnown := false, seq := 0 }).2
      ((initFrames s s.devId).take n) := by
    have : (initFrames s s.devId).take n = (s.initSeq.toList.take n).map (commandFrame s s.devId) := by
      simp [initFrames, List.map_take]
    rw [this]; exact hgrew
  have hrun : runInitSequence { s with fb := zeroMemory, panelWinKnown := false } =
      sendCommands s.initSeq.toList { s with fb := zeroMemory, panelWinKnown := false, seq := 0 } := rfl
  rcases hp : sendCommands s.initSeq.toList { s with fb := zeroMemory, panelWinKnown := false, seq := 0 } with ⟨r, t⟩
  rw [hp] at hsame' hgrew' hres hrun
  simp only at hsame' hgrew' hres
  rcases hres with ⟨rfl, hn26, -⟩ | ⟨k, b, e, hk, hb, rfl⟩
  · exact ⟨t, n, hsame', hgrew', by omega, by omega, .inl ⟨hn26, by simp [configurePanel, hrun]⟩⟩
  · exact ⟨t, n, hsame', hgrew', by omega, by omega, .inr ⟨k, b, e, hk, hb, by simp [configurePanel, hrun]⟩⟩

/-- Configuring the panel where every answer stands in State and is a success. -/
theorem configurePanel_all_ok (undo : State → State) (s : State) (hs : List Handle) (rest : List Reply)
    (hl : hs.length = 26) (h : s.replies = hs.map .ok ++ rest) :
    configurePanel undo s = endedPlain .ok
      { s with
        session := .ready, fb := [], panelWinKnown := false, replies := rest
        trace := s.trace ++ (initFrames s s.devId).map (okIn s) } := by
  have h1 := sendCommands_all_ok s.initSeq.toList hs rest { s with fb := zeroMemory, panelWinKnown := false, seq := 0 }
    (by rw [length_initSeq, hl]) h
  have hrun : runInitSequence { s with fb := zeroMemory, panelWinKnown := false } =
      sendCommands s.initSeq.toList { s with fb := zeroMemory, panelWinKnown := false, seq := 0 } := rfl
  rw [configurePanel, hrun, h1]
  simp [complete, finish, completionOk, endedPlain, ended, initFrames, okIn, commandFrame, statusWord, zeroMemory,
    Function.comp_def]

/-- Configuring the panel where the answers stand in State and the frame of byte `k` fails. -/
theorem configurePanel_fail_at (undo : State → State) (s : State) (k : Nat) (b : Byte) (hs : List Handle) (e : Word32)
    (rest : List Reply) (hl : hs.length = k) (hb : s.initSeq.toList[k]? = some b)
    (h : s.replies = hs.map .ok ++ .fail e :: rest) :
    configurePanel undo s = finish (commandFrameFailed b (BitVec.ofNat 5 k) e) (undo
      { s with
        fb := [], panelWinKnown := false, seq := BitVec.ofNat 5 k, replies := rest
        trace := s.trace ++ ((initFrames s s.devId).take k).map (okIn s) ++ [failIn s (commandFrame s s.devId b) e] }) := by
  have hklt : k < s.initSeq.toList.length := (List.getElem?_eq_some_iff.mp hb).1
  have hbk : s.initSeq.toList[k] = b := (List.getElem?_eq_some_iff.mp hb).2
  have hsplit : s.initSeq.toList = s.initSeq.toList.take k ++ b :: s.initSeq.toList.drop (k + 1) := by
    rw [← hbk, List.getElem_cons_drop, List.take_append_drop]
  have hlen : (s.initSeq.toList.take k).length = k := by rw [List.length_take]; omega
  have h1 := sendCommands_fail_at (s.initSeq.toList.take k) b (s.initSeq.toList.drop (k + 1)) hs e rest
    { s with fb := zeroMemory, panelWinKnown := false, seq := 0 } (by rw [hlen, hl]) h
  rw [← hsplit, hlen] at h1
  have hrun : runInitSequence { s with fb := zeroMemory, panelWinKnown := false } =
      sendCommands s.initSeq.toList { s with fb := zeroMemory, panelWinKnown := false, seq := 0 } := rfl
  rw [configurePanel, hrun, h1]
  simp [initFrames, okIn, failIn, commandFrame, statusWord, zeroMemory, List.map_take, Function.comp_def]

/-! ## INIT_OWNING (43_session.md R211, R212) -/

/-- The rollback of an owning session releases the device, then the bus, and forgets both. -/
theorem undoOwning_spec (u : State) :
    ∃ w a b, SameButBus u w ∧
      w.trace = u.trace ++ [⟨.devRemove u.devId, a, statusWord u⟩, ⟨.busDelete u.busId, b, statusWord u⟩] ∧
      undoOwning u = { w with devId := 0, busId := 0, owns := false, session := .uninit } := by
  refine ⟨releaseOwned u, ackAnswer (nextReply u), ackAnswer (nextReply (requestAck (.devRemove u.devId) u).2),
    rfl, ?_, rfl⟩
  simp [releaseOwned, requestAck]

/-- The rollback where both answers stand in State. -/
theorem undoOwning_cons {u : State} {r1 r2 : Reply} {rest : List Reply} (h : u.replies = r1 :: r2 :: rest) :
    undoOwning u =
      { u with
        devId := 0, busId := 0, owns := false, session := .uninit, replies := rest
        trace := u.trace ++ [answeredIn u (.devRemove u.devId) r1, answeredIn u (.busDelete u.busId) r2] } := by
  unfold undoOwning releaseOwned
  simp only
  rw [requestAck_cons (s := u) h]
  simp only
  rw [requestAck_cons (a := r2) (rs := rest)]
  case h => exact rfl
  cases r1 <;> cases r2 <;> simp [answeredIn, ackAnswer, statusWord]

/-- Everything INIT_OWNING can do where the session allows it. -/
theorem initOwning_cases (scl sda : Byte) (s : State) :
    (∃ e u, SameButBus { s with session := .configuring } u ∧
      u.trace = s.trace ++ [⟨.busCreate scl sda, .fail e, statusWord { s with session := .configuring }⟩] ∧
      initOwning scl sda s = finish (resourceFailed .busCreate e) { u with session := .uninit }) ∨
    (∃ bus e a u, bus ≠ 0 ∧ SameButBus { s with session := .configuring, busId := bus } u ∧
      u.trace = s.trace ++
        [⟨.busCreate scl sda, .handle bus, statusWord { s with session := .configuring }⟩,
         ⟨.devAdd bus 0x3C s.params.busClkHz, .fail e, statusWord { s with session := .configuring }⟩,
         ⟨.busDelete bus, a, statusWord { s with session := .configuring }⟩] ∧
      initOwning scl sda s = finish (resourceFailed .devAdd e) { u with busId := 0, session := .uninit }) ∨
    (∃ bus dev v, bus ≠ 0 ∧ dev ≠ 0 ∧
      SameButBus { s with session := .configuring, busId := bus, devId := dev, owns := true } v ∧
      v.trace = s.trace ++
        [⟨.busCreate scl sda, .handle bus, statusWord { s with session := .configuring }⟩,
         ⟨.devAdd bus 0x3C s.params.busClkHz, .handle dev, statusWord { s with session := .configuring }⟩] ∧
      initOwning scl sda s = configurePanel undoOwning v) := by
  cases h1 : nextReply { s with session := .configuring } with
  | fail e =>
    refine .inl ⟨e, (requestHandle (.busCreate scl sda) { s with session := .configuring }).2, rfl, ?_, ?_⟩
    · simp [requestHandle, h1, handleAnswer, record]
    · simp [initOwning, requestHandle, h1, replyHandle]
  | ok bus =>
    let t : State := { (requestHandle (.busCreate scl sda) { s with session := .configuring }).2 with busId := bus.val }
    have ht : initOwning scl sda s = attachDevice t := by
      simp [initOwning, requestHandle, h1, replyHandle, t]
    have httr : t.trace = s.trace ++ [⟨.busCreate scl sda, .handle bus.val, statusWord { s with session := .configuring }⟩] := by
      simp [t, requestHandle, h1, handleAnswer]
    have htst : statusWord t = statusWord { s with session := .configuring } := rfl
    cases h2 : nextReply t with
    | fail e =>
      let v : State := (requestHandle (.devAdd t.busId PANEL_ADDR t.params.busClkHz) t).2
      refine .inr (.inl ⟨bus.val, e, ackAnswer (nextReply v), (requestAck (.busDelete v.busId) v).2, bus.property, rfl, ?_, ?_⟩)
      · have hv : v.trace = t.trace ++ [⟨.devAdd bus.val 0x3C s.params.busClkHz, .fail e, statusWord t⟩] := by
          simp [v, requestHandle, h2, handleAnswer]
          exact ⟨rfl, rfl⟩
        have hw : (requestAck (.busDelete v.busId) v).2.trace =
            v.trace ++ [⟨.busDelete bus.val, ackAnswer (nextReply v), statusWord t⟩] := rfl
        rw [hw, hv, httr, htst]
        simp
      · rw [ht]
        simp [attachDevice, requestHandle, h2, replyHandle, v]
    | ok dev =>
      refine .inr (.inr ⟨bus.val, dev.val, { (requestHandle (.devAdd t.busId PANEL_ADDR t.params.busClkHz) t).2 with devId := dev.val, owns := true },
        bus.property, dev.property, rfl, ?_, ?_⟩)
      · have hv : (requestHandle (.devAdd t.busId PANEL_ADDR t.params.busClkHz) t).2.trace =
            t.trace ++ [⟨.devAdd bus.val 0x3C s.params.busClkHz, .handle dev.val, statusWord t⟩] := by
          simp [requestHandle, h2, handleAnswer]
          exact ⟨rfl, rfl⟩
        simp only [hv, httr, htst]
        simp
      · rw [ht]
        simp [attachDevice, requestHandle, h2, replyHandle]

/-! ## DEINIT (43_session.md R214, R220, R221) -/

/-- Everything DEINIT of an owning session can do. -/
theorem deinit_owning_cases {s : State} (h : s.owns = true) :
    ∃ c w a b, SameButBus s w ∧
      w.trace = s.trace ++ [⟨.devRemove s.devId, a, statusWord s⟩, ⟨.busDelete s.busId, b, statusWord s⟩] ∧
      (c = completionOk ∨ ∃ e, c = resourceFailed .devRemove e ∨ c = resourceFailed .busDelete e) ∧
      deinit s = finish c (closeSession w) := by
  refine ⟨deinitCompletion (requestAck (.devRemove s.devId) s).1
      (requestAck (.busDelete s.busId) (requestAck (.devRemove s.devId) s).2).1,
    (requestAck (.busDelete s.busId) (requestAck (.devRemove s.devId) s).2).2,
    ackAnswer (nextReply s), ackAnswer (nextReply (requestAck (.devRemove s.devId) s).2), rfl, ?_, ?_, ?_⟩
  · simp [requestAck]
  · cases (requestAck (.devRemove s.devId) s).1 with
    | some e => exact .inr ⟨e, .inl rfl⟩
    | none =>
      cases (requestAck (.busDelete s.busId) (requestAck (.devRemove s.devId) s).2).1 with
      | some e => exact .inr ⟨e, .inr rfl⟩
      | none => exact .inl rfl
  · unfold deinit
    rw [if_pos h]
    rfl

theorem deinit_borrowed {s : State} (h : s.owns = false) : deinit s = complete (closeSession s) := by
  simp [deinit, h]

end Sys2Proof.Machine
end

