-- ==== Sys2Proof/Laws/Exec.lean ====
section
/-! SUPPORT. `exec` and `step` as one law each: every command answers a next state, and a step is one of
these cases. -/

namespace Sys2Proof.Machine

open Config Safety

/-- The state a command leaves. -/
def after : Instr → State → State
  | .initOwning scl sda => whenInitAllowed (initOwning scl sda)
  | .initBorrowing h => whenInitAllowed (initBorrowing h)
  | .deinit => whenReady deinit
  | .setPixel x y on => whenReady fun s => complete { s with fb := pixelMem s.fb x.toNat y.toNat on }
  | .getPixel x y => whenReady (getPixel x.toNat y.toNat)
  | .drawChar c x pg => whenReady fun s => complete (drawGlyph c x.toNat pg.toNat s)
  | .drawText x pg sp p => whenReady (drawText x.toNat pg.toNat sp p)
  | .clearArea x pg wd ht => whenReady (clearArea x.toNat pg.toNat wd.toNat ht.toNat)
  | .clearDisplay => whenReady fun s => complete { s with fb := zeroMemory }
  | .updateScreen => whenReady updateScreen

/-- Every command completes: `exec` answers a next state (10_state.md R30). -/
theorem exec_eq_after (i : Instr) (s : State) : exec i s = .next (after i s) := by cases i <;> rfl

/-! ## What each family can do -/

/-- The session check of every command but INIT_* (41_framebuffer.md R121, 60_exceptions.md R245). -/
theorem after_not_ready {i : Instr} (hi : isInit i = false) {s : State} (h : s.session ≠ .ready) :
    after i s = finish notInitialized s := by
  cases i <;> simp [isInit] at hi <;> simp only [after, whenReady_of_not_ready h]

theorem isInit_of_isFramebuffer {i : Instr} (h : isFramebuffer i = true) : isInit i = false := by
  cases i <;> simp [isFramebuffer, isInit] at h ⊢

/-- A framebuffer command ends with a plain completion, from a state that only drawing or the pixel read
changed (41_framebuffer.md R120). -/
theorem after_framebuffer {i : Instr} (h : isFramebuffer i = true) (s : State) :
    ∃ k u, after i s = endedPlain k u ∧ (k = .ok ∨ k = .notInitialized ∨ k = .invalidArgument) ∧
      u = { s with fb := u.fb, result := u.result, curX := u.curX, curY := u.curY, diag := u.diag } := by
  by_cases hr : s.session = .ready
  · cases i with
    | initOwning scl sda => cases h
    | initBorrowing hd => cases h
    | deinit => cases h
    | updateScreen => cases h
    | setPixel x y on => exact ⟨.ok, _, by rw [after, whenReady_of_ready hr]; rfl, .inl rfl, rfl⟩
    | clearDisplay => exact ⟨.ok, _, by rw [after, whenReady_of_ready hr]; rfl, .inl rfl, rfl⟩
    | drawChar c x pg =>
      refine ⟨.ok, _, by rw [after, whenReady_of_ready hr]; rfl, .inl rfl, ?_⟩
      unfold drawGlyph
      split <;> rfl
    | getPixel x y =>
      rw [after, whenReady_of_ready hr]
      unfold getPixel
      split
      · exact ⟨.ok, _, rfl, .inl rfl, rfl⟩
      · exact ⟨.invalidArgument, s, rfl, .inr (.inr rfl), rfl⟩
    | drawText x pg sp p =>
      rw [after, whenReady_of_ready hr]
      unfold drawText
      split
      · refine ⟨.ok, _, rfl, .inl rfl, ?_⟩
        have hsame := layoutText_same x.toNat pg.toNat (payloadString p) s
        unfold SameButDrawing at hsame
        rw [hsame]
      · exact ⟨.invalidArgument, s, rfl, .inr (.inr rfl), rfl⟩
    | clearArea x pg wd ht =>
      rw [after, whenReady_of_ready hr]
      unfold clearArea
      split
      · exact ⟨.ok, _, rfl, .inl rfl, rfl⟩
      · exact ⟨.invalidArgument, s, rfl, .inr (.inr rfl), rfl⟩
  · exact ⟨.notInitialized, s, after_not_ready (isInit_of_isFramebuffer h) hr, .inr (.inl rfl), rfl⟩

/-- A framebuffer command keeps the canonical form of the framebuffer (20_memory.md R55). -/
theorem wf_after_framebuffer {i : Instr} (h : isFramebuffer i = true) {s : State} (hw : s.fb.wf = true) :
    (after i s).fb.wf = true := by
  by_cases hr : s.session = .ready
  · cases i with
    | initOwning scl sda => cases h
    | initBorrowing hd => cases h
    | deinit => cases h
    | updateScreen => cases h
    | setPixel x y on => rw [after, whenReady_of_ready hr]; exact wf_pixelMem hw _ _ _
    | clearDisplay => rw [after, whenReady_of_ready hr]; exact wf_zeroMemory
    | drawChar c x pg => rw [after, whenReady_of_ready hr]; exact wf_drawGlyph hw _ _ _
    | getPixel x y =>
      rw [after, whenReady_of_ready hr]
      unfold getPixel
      split <;> exact hw
    | drawText x pg sp p =>
      rw [after, whenReady_of_ready hr]
      unfold drawText
      split
      · exact wf_layoutText hw _ _ _
      · exact hw
    | clearArea x pg wd ht =>
      rw [after, whenReady_of_ready hr]
      unfold clearArea
      split
      · exact wf_clearedArea hw ‹_›
      · exact hw
  · rw [after_not_ready (isInit_of_isFramebuffer h) hr]
    exact hw

/-! ## A step -/

/-- Where the host sends bytes, not one empty chunk, a step runs the first command of them. -/
theorem step_send {s : State} {bs : List Byte} {ms : List HostMove} (hne : bs ≠ []) (h : s.host = .send bs :: ms) :
    step s = runCommand bs ms s := by
  cases bs with
  | nil => exact absurd rfl hne
  | cons b bs => simp [step, h]

/-- A command that is complete on the port, of a controller that is not busy, runs or completes as an illegal
word. -/
theorem runCommand_of_fetch {s : State} {bs : List Byte} {c : Fetched} (ms : List HostMove) (hb : s.busy = false)
    (hf : fetchCommand bs = some c) :
    runCommand bs ms s = .next (match decodeWord c.word c.payload with
      | .ok i => after i (accept c ms s)
      | .error _ => illegalWord (accept c ms s)) := by
  unfold runCommand
  simp only [hb, Bool.false_eq_true, if_false, hf]
  cases decodeWord c.word c.payload with
  | ok i => exact exec_eq_after i _
  | error e => rfl

/-- Everything a command on the port can do. -/
theorem runCommand_cases {s t : State} {bs : List Byte} {ms : List HostMove} (h : runCommand bs ms s = .next t) :
    s.busy = false ∧ ∃ c, fetchCommand bs = some c ∧
      ((∃ i, t = after i (accept c ms s)) ∨ t = illegalWord (accept c ms s)) := by
  cases hb : s.busy with
  | true => simp [runCommand, hb] at h
  | false =>
    cases hf : fetchCommand bs with
    | none => simp [runCommand, hb, hf] at h
    | some c =>
      rw [runCommand_of_fetch ms hb hf] at h
      refine ⟨rfl, c, rfl, ?_⟩
      cases hd : decodeWord c.word c.payload with
      | ok i => rw [hd] at h; exact .inl ⟨i, by simpa using h.symm⟩
      | error e => rw [hd] at h; exact .inr (by simpa using h.symm)

/-- A command whose bytes have not all arrived, of a controller that is not busy, does not run. -/
theorem runCommand_of_incomplete {s : State} {bs : List Byte} (ms : List HostMove) (hb : s.busy = false)
    (hf : fetchCommand bs = none) : runCommand bs ms s = .fault .commandIncomplete := by
  simp [runCommand, hb, hf]

/-- No command stops the machine: the two faults are those of the port, before any command runs. -/
theorem runCommand_fault {s : State} {bs : List Byte} {ms : List HostMove} {f : Fault}
    (h : runCommand bs ms s = .fault f) :
    (s.busy = true ∧ f = .commandWhileBusy) ∨ (s.busy = false ∧ fetchCommand bs = none ∧ f = .commandIncomplete) := by
  cases hb : s.busy with
  | true => exact .inl ⟨rfl, by simpa [runCommand, hb] using h.symm⟩
  | false =>
    cases hf : fetchCommand bs with
    | none => exact .inr ⟨rfl, rfl, by simpa [runCommand, hb, hf] using h.symm⟩
    | some c => rw [runCommand_of_fetch ms hb hf] at h; cases h

/-- Everything a command with block reset can do: it is abandoned, or its bytes had not all arrived. -/
theorem runThenReset_cases {s t : State} {bs : List Byte} {k : Nat} {ms : List HostMove}
    (h : runThenReset bs k ms s = .next t) :
    (∃ u, runCommand bs ms s = .next u ∧ t = abandon k s u) ∨
    (s.busy = false ∧ fetchCommand bs = none ∧ t = blockReset { s with host := ms }) := by
  unfold runThenReset at h
  split at h
  · rename_i hu
    exact .inl ⟨_, hu, (Host.Outcome.next.inj h).symm⟩
  · rename_i hu
    rcases runCommand_fault hu with ⟨-, hf⟩ | ⟨hb, hf, -⟩
    · cases hf
    · exact .inr ⟨hb, hf, (Host.Outcome.next.inj h).symm⟩
  · cases h
  · cases h

/-- Everything a step that answers a next state can do. -/
theorem step_cases {s t : State} (h : step s = .next t) :
    t = s ∨
    (∃ ms, t = { s with host := ms }) ∨
    (∃ bs ms, runCommand bs ms s = .next t) ∨
    (∃ bs ms k u, runCommand bs ms s = .next u ∧ t = abandon k s u) ∨
    (∃ ms, t = blockReset { s with host := ms }) := by
  unfold step at h
  split at h
  · exact .inl (Host.Outcome.next.inj h).symm
  · exact .inr (.inl ⟨_, (Host.Outcome.next.inj h).symm⟩)
  · exact .inr (.inr (.inl ⟨_, _, h⟩))
  · rcases runThenReset_cases h with ⟨u, hu, e⟩ | ⟨-, -, e⟩
    · exact .inr (.inr (.inr (.inl ⟨_, _, _, u, hu, e⟩)))
    · exact .inr (.inr (.inr (.inr ⟨_, e⟩)))
  · exact .inr (.inr (.inr (.inr ⟨_, (Host.Outcome.next.inj h).symm⟩)))
  · exact .inr (.inl ⟨_, (Host.Outcome.next.inj h).symm⟩)
  · exact .inr (.inl ⟨_, (Host.Outcome.next.inj h).symm⟩)

end Sys2Proof.Machine
end

