-- ==== Sys2Proof/Laws/Requests.lean ====
section
/-! SUPPORT. The requests of a list of transactions, and the resources they create and release. -/

namespace Sys2Proof.Machine

open Safety

@[simp] theorem requests_nil : requests [] = [] := rfl

@[simp] theorem requests_cons (x : Transaction) (tr : List Transaction) :
    requests (x :: tr) = x.request :: requests tr := rfl

@[simp] theorem requests_append (a b : List Transaction) : requests (a ++ b) = requests a ++ requests b :=
  List.map_append

theorem length_of_requests {tr : List Transaction} {l : List Request} (h : requests tr = l) : tr.length = l.length := by
  rw [← h, requests, List.length_map]

@[simp] theorem busesCreated_append (a b : List Transaction) :
    busesCreated (a ++ b) = busesCreated a ++ busesCreated b := by
  induction a with
  | nil => rfl
  | cons x a ih => obtain ⟨r, an, st⟩ := x; cases r <;> cases an <;> simp [busesCreated, ih]

@[simp] theorem busesDeleted_append (a b : List Transaction) :
    busesDeleted (a ++ b) = busesDeleted a ++ busesDeleted b := by
  induction a with
  | nil => rfl
  | cons x a ih => obtain ⟨r, an, st⟩ := x; cases r <;> cases an <;> simp [busesDeleted, ih]

@[simp] theorem devicesAttached_append (a b : List Transaction) :
    devicesAttached (a ++ b) = devicesAttached a ++ devicesAttached b := by
  induction a with
  | nil => rfl
  | cons x a ih => obtain ⟨r, an, st⟩ := x; cases r <;> cases an <;> simp [devicesAttached, ih]

@[simp] theorem devicesRemoved_append (a b : List Transaction) :
    devicesRemoved (a ++ b) = devicesRemoved a ++ devicesRemoved b := by
  induction a with
  | nil => rfl
  | cons x a ih => obtain ⟨r, an, st⟩ := x; cases r <;> cases an <;> simp [devicesRemoved, ih]

/-- Frames create and release nothing. -/
theorem no_resources_of_transmits {tr : List Transaction} (h : ∀ r ∈ requests tr, isTransmit r = true) :
    busesCreated tr = [] ∧ busesDeleted tr = [] ∧ devicesAttached tr = [] ∧ devicesRemoved tr = [] := by
  induction tr with
  | nil => exact ⟨rfl, rfl, rfl, rfl⟩
  | cons x tr ih =>
    obtain ⟨r, a, st⟩ := x
    have htail := ih fun r hr => h r (List.mem_cons_of_mem _ hr)
    have hhead := h r List.mem_cons_self
    cases r <;> simp [isTransmit] at hhead
    exact htail

/-- The frames of the initialisation sequence are transmissions. -/
theorem isTransmit_of_mem_initFrames {s : State} {dev : Word32} {n : Nat} :
    ∀ r ∈ (initFrames s dev).take n, isTransmit r = true := by
  intro r hr
  obtain ⟨b, -, rfl⟩ := List.mem_map.1 (List.mem_of_mem_take hr)
  rfl

/-- The frames of UPDATE_SCREEN are transmissions. -/
theorem isTransmit_of_mem_screenFrames {s : State} {n : Nat} :
    ∀ r ∈ (screenFrames s).take n, isTransmit r = true := by
  intro r hr
  rcases List.mem_append.1 (List.mem_of_mem_take hr) with hr | hr
  · obtain ⟨b, -, rfl⟩ := List.mem_map.1 hr
    rfl
  · rw [List.mem_singleton.1 hr]; rfl

@[simp] theorem length_initFrames (s : State) (dev : Word32) : (initFrames s dev).length = 26 := by simp [initFrames]

/-- An initialisation that requested a frame transmitted one. -/
theorem any_isTransmit_initFrames (s : State) (dev : Word32) (k : Nat) :
    ((initFrames s dev).take (k + 1)).any isTransmit = true := by
  cases hl : (initFrames s dev).take (k + 1) with
  | nil => have := congrArg List.length hl; simp at this
  | cons r l => simp [isTransmit_of_mem_initFrames (s := s) (dev := dev) (n := k + 1) r (by simp [hl])]

/-- An initialisation that requested all frames and completed OK. -/
theorem endsAtFrame_ok (s u : State) : endsAtFrame s 26 (endedPlain .ok u) :=
  ⟨by decide, by decide, fun _ => rfl, fun h => absurd rfl h⟩

/-- An initialisation whose frame `k` failed. -/
theorem endsAtFrame_failed {s : State} {k : Nat} {b : Byte} (hk : k < 26) (hb : s.initSeq.toList[k]? = some b)
    (e : Word32) (u : State) : endsAtFrame s (k + 1) (endedCommandFrame b (BitVec.ofNat 5 k) e u) :=
  ⟨Nat.le_add_left 1 k, hk, fun h => (nomatch h), fun _ => ⟨rfl, rfl, rfl, hb.symm⟩⟩

end Sys2Proof.Machine
end

