-- ==== Sys2Proof/Laws/Command.lean ====
section
/-! SUPPORT. Everything a command can do, as one case analysis that the rules over all commands cite. -/

namespace Sys2Proof.Machine

open Config Safety

/-- Which of its paths a command takes. -/
theorem after_paths (i : Instr) (s : State) :
    (∃ k, (k = .notInitialized ∨ k = .invalidArgument ∨ k = .illegalCommand) ∧ k ∈ possibleKinds i ∧ after i s = endedPlain k s ∧
       (s.session = .ready → i = .deinit → False) ∧ (s.session = .ready → i = .updateScreen → False)) ∨
    (s.session = .ready ∧ isFramebuffer i = true ∧ ∃ u, after i s = endedPlain .ok u ∧
      u = { s with fb := u.fb, result := u.result, curX := u.curX, curY := u.curY, diag := u.diag } ∧
      (match i with
        | .getPixel x y => u.result = (memRead s.fb (pixelIndex x.toNat y.toNat)).getLsbD (pixelBit y.toNat)
        | _ => u.result = s.result)) ∨
    (s.session = .ready ∧ i = .updateScreen ∧ after i s = updateScreen s) ∨
    (s.session = .ready ∧ i = .deinit ∧ after i s = deinit s) ∨
    ((s.session = .uninit ∨ s.session = .configuring) ∧ ∃ h, i = .initBorrowing h ∧ h ≠ 0 ∧ after i s = configurePanel undoBorrowing { s with session := .configuring, devId := h, busId := 0, owns := false }) ∨
    ((s.session = .uninit ∨ s.session = .configuring) ∧ ∃ a b, i = .initOwning a b ∧ after i s = initOwning a b s) := by
  by_cases hi : isInit i = true
  · cases i with
    | initOwning a b =>
      rcases whenInitAllowed_cases (initOwning a b) s with ⟨h, e⟩ | ⟨h, e⟩ | ⟨h, e⟩
      · exact .inl ⟨.notInitialized, .inl rfl, by simp [possibleKinds], e, by simp, by simp⟩
      · exact .inl ⟨.illegalCommand, .inr (.inr rfl), by simp [possibleKinds], e, by simp, by simp⟩
      · exact .inr (.inr (.inr (.inr (.inr ⟨h, a, b, rfl, e⟩))))
    | initBorrowing hd =>
      rcases whenInitAllowed_cases (initBorrowing hd) s with ⟨h, e⟩ | ⟨h, e⟩ | ⟨h, e⟩
      · exact .inl ⟨.notInitialized, .inl rfl, by simp [possibleKinds], e, by simp, by simp⟩
      · exact .inl ⟨.illegalCommand, .inr (.inr rfl), by simp [possibleKinds], e, by simp, by simp⟩
      · by_cases h0 : hd = 0
        · rw [initBorrowing, if_pos h0] at e
          exact .inl ⟨.notInitialized, .inl rfl, by simp [possibleKinds], e, by simp, by simp⟩
        · rw [initBorrowing, if_neg h0] at e
          exact .inr (.inr (.inr (.inr (.inl ⟨h, hd, rfl, h0, e⟩))))
    | _ => simp [isInit] at hi
  · by_cases hr : s.session = .ready
    · cases i with
      | deinit => exact .inr (.inr (.inr (.inl ⟨hr, rfl, by rw [after, whenReady_of_ready hr]⟩)))
      | updateScreen => exact .inr (.inr (.inl ⟨hr, rfl, by rw [after, whenReady_of_ready hr]⟩))
      | initOwning a b => simp [isInit] at hi
      | initBorrowing a => simp [isInit] at hi
      | setPixel x y on => exact .inr (.inl ⟨hr, rfl, { s with fb := pixelMem s.fb x.toNat y.toNat on }, by rw [after, whenReady_of_ready hr]; rfl, rfl, rfl⟩)
      | clearDisplay => exact .inr (.inl ⟨hr, rfl, { s with fb := zeroMemory }, by rw [after, whenReady_of_ready hr]; rfl, rfl, rfl⟩)
      | drawChar c x pg =>
        refine .inr (.inl ⟨hr, rfl, _, by rw [after, whenReady_of_ready hr]; rfl, ?_, ?_⟩)
        · unfold drawGlyph; split <;> rfl
        · show (drawGlyph _ _ _ _).result = _
          unfold drawGlyph; split <;> rfl
      | getPixel x y =>
        have e : after (.getPixel x y) s = getPixel x.toNat y.toNat s := by rw [after, whenReady_of_ready hr]
        unfold getPixel at e
        split at e
        · exact .inr (.inl ⟨hr, rfl, _, e, rfl, rfl⟩)
        · exact .inl ⟨.invalidArgument, .inr (.inl rfl), by simp [possibleKinds], e, by simp, by simp⟩
      | drawText x pg sp p =>
        have e : after (.drawText x pg sp p) s = drawText x.toNat pg.toNat sp p s := by rw [after, whenReady_of_ready hr]
        unfold drawText at e
        have hsame := layoutText_same x.toNat pg.toNat (payloadString p) s
        unfold SameButDrawing at hsame
        split at e
        · refine .inr (.inl ⟨hr, rfl, _, e, ?_, ?_⟩)
          · rw [hsame]
          · show (layoutText _ _ _ _).result = _
            rw [hsame]
        · exact .inl ⟨.invalidArgument, .inr (.inl rfl), by simp [possibleKinds], e, by simp, by simp⟩
      | clearArea x pg wd ht =>
        have e : after (.clearArea x pg wd ht) s = clearArea x.toNat pg.toNat wd.toNat ht.toNat s := by rw [after, whenReady_of_ready hr]
        unfold clearArea at e
        split at e
        · exact .inr (.inl ⟨hr, rfl, _, e, rfl, rfl⟩)
        · exact .inl ⟨.invalidArgument, .inr (.inl rfl), by simp [possibleKinds], e, by simp, by simp⟩
    · have e := after_not_ready (by simpa using hi) hr
      refine .inl ⟨.notInitialized, .inl rfl, ?_, e, fun h => absurd h hr, fun h => absurd h hr⟩
      cases i <;> simp [possibleKinds]

/-- How INIT_OWNING from `s` ends in `t`, where the session allows it: no bus, no device, a configured panel, or a
rolled back session (43_session.md R211, R212). -/
inductive InitOwningEnd (scl sda : Byte) (s : State) (t : State) : Prop where
  | noBus (e : Word32) (u : State) : SameButBus { s with session := .configuring } u →
      u.trace = s.trace ++ [⟨.busCreate scl sda, .fail e, statusWord { s with session := .configuring }⟩] →
      t = endedResource .busCreate e { u with session := .uninit } → InitOwningEnd scl sda s t
  | noDev (bus : Word32) (e : Word32) (a : Answer) (u : State) : SameButBus { s with session := .configuring, busId := bus } u →
      u.trace = s.trace ++
        [⟨.busCreate scl sda, .handle bus, statusWord { s with session := .configuring }⟩,
         ⟨.devAdd bus 0x3C s.params.busClkHz, .fail e, statusWord { s with session := .configuring }⟩,
         ⟨.busDelete bus, a, statusWord { s with session := .configuring }⟩] →
      t = endedResource .devAdd e { u with busId := 0, session := .uninit } → InitOwningEnd scl sda s t
  | ok (bus dev : Word32) (new : List Transaction) (u : State) : bus ≠ 0 → dev ≠ 0 →
      SameButBus { s with session := .configuring, busId := bus, devId := dev, owns := true, fb := zeroMemory, panelWinKnown := false } u →
      u.trace = s.trace ++
        [⟨.busCreate scl sda, .handle bus, statusWord { s with session := .configuring }⟩,
         ⟨.devAdd bus 0x3C s.params.busClkHz, .handle dev, statusWord { s with session := .configuring }⟩] ++ new →
      requests new = initFrames s dev → (∀ x ∈ new, x.status = statusWord { s with session := .configuring, owns := true }) →
      t = endedPlain .ok { u with session := .ready } → InitOwningEnd scl sda s t
  | undone (bus dev : Word32) (k : Nat) (b : Byte) (e : Word32) (a1 a2 : Answer) (new : List Transaction) (u : State) : bus ≠ 0 → dev ≠ 0 →
      SameButBus { s with session := .configuring, busId := bus, devId := dev, owns := true, fb := zeroMemory, panelWinKnown := false } u →
      k < 26 →
      u.trace = s.trace ++
        [⟨.busCreate scl sda, .handle bus, statusWord { s with session := .configuring }⟩,
         ⟨.devAdd bus 0x3C s.params.busClkHz, .handle dev, statusWord { s with session := .configuring }⟩] ++ new ++
         [⟨.devRemove dev, a1, statusWord { s with session := .configuring, owns := true }⟩,
          ⟨.busDelete bus, a2, statusWord { s with session := .configuring, owns := true }⟩] →
      requests new = (initFrames s dev).take (k+1) → s.initSeq.toList[k]? = some b →
      (∀ x ∈ new, x.status = statusWord { s with session := .configuring, owns := true }) →
      t = endedCommandFrame b (BitVec.ofNat 5 k) e { u with devId := 0, busId := 0, owns := false, session := .uninit } → InitOwningEnd scl sda s t

/-- Everything INIT_OWNING can do where the session allows it. -/
theorem initOwning_end (scl sda : Byte) (s : State) : InitOwningEnd scl sda s (initOwning scl sda s) := by
  rcases initOwning_cases scl sda s with ⟨e, u, h1, h2, h3⟩ | ⟨bus, e, a, u, hb, h1, h2, h3⟩ | ⟨bus, dev, v, hb, hd, h1, h2, h3⟩
  · exact .noBus e u h1 h2 h3
  · exact .noDev bus e a u h1 h2 h3
  · obtain ⟨u, n, g1, ⟨new, g2, g3, g4⟩, g5, g6, g7⟩ := configurePanel_cases undoOwning v
    have hv := h1.fields
    have hst : statusWord v = statusWord { s with session := .configuring, owns := true } := hv.2.2.2.2.2.2.2.2.2.2.2.2.2.2.2
    have hsame : SameButBus { s with session := .configuring, busId := bus, devId := dev, owns := true, fb := zeroMemory, panelWinKnown := false } u := by
      refine SameButBus.trans ?_ g1
      unfold SameButBus at h1
      rw [h1]; rfl
    have hif : initFrames v v.devId = initFrames s dev := by
      unfold SameButBus at h1
      rw [h1]; rfl
    rw [hif] at g3
    rw [hst] at g4
    rw [h2] at g2
    rw [h3]
    rcases g7 with ⟨rfl, e⟩ | ⟨k, b, e', hk, hb', e⟩
    · rw [e]
      refine .ok bus dev new u hb hd hsame g2 ?_ g4 rfl
      rw [g3]; exact List.take_of_length_le (by simp [initFrames])
    · rw [e]
      obtain ⟨w, a1, a2, j1, j2, j3⟩ := undoOwning_spec u
      subst hk
      have hu := hsame.fields
      have hseq : v.initSeq = s.initSeq := hv.2.2.1
      rw [hseq] at hb'
      refine .undone bus dev k b e' a1 a2 new w hb hd (hsame.trans j1) (by omega) ?_ g3 hb' g4 (by rw [j3]; rfl)
      rw [j2, g2, hu.2.2.2.2.2.1, hu.2.2.2.2.2.2.1, hu.2.2.2.2.2.2.2.2.2.2.2.2.2.2.2]
      rfl

/-- How INIT_BORROWING from `s` ends in `t`, where the session allows it and a handle is given (43_session.md
R213). -/
inductive InitBorrowingEnd (h : Word32) (s t : State) : Prop where
  | ok (new : List Transaction) (u : State) :
      SameButBus { s with session := .configuring, devId := h, busId := 0, owns := false, fb := zeroMemory, panelWinKnown := false } u →
      u.trace = s.trace ++ new → requests new = initFrames s h → (∀ x ∈ new, x.status = statusWord { s with session := .configuring, owns := false }) →
      t = endedPlain .ok { u with session := .ready } → InitBorrowingEnd h s t
  | fail (k : Nat) (b : Byte) (e : Word32) (new : List Transaction) (u : State) :
      SameButBus { s with session := .configuring, devId := h, busId := 0, owns := false, fb := zeroMemory, panelWinKnown := false } u →
      u.trace = s.trace ++ new → k < 26 → requests new = (initFrames s h).take (k+1) → s.initSeq.toList[k]? = some b →
      (∀ x ∈ new, x.status = statusWord { s with session := .configuring, owns := false }) →
      t = endedCommandFrame b (BitVec.ofNat 5 k) e { u with devId := 0, session := .uninit } → InitBorrowingEnd h s t

/-- Everything INIT_BORROWING can do where the session allows it and a handle is given. -/
theorem initBorrowing_end (h : Word32) (s : State) : InitBorrowingEnd h s (configurePanel undoBorrowing { s with session := .configuring, devId := h, busId := 0, owns := false }) := by
  obtain ⟨u, n, g1, ⟨new, g2, g3, g4⟩, g5, g6, g7⟩ := configurePanel_cases undoBorrowing { s with session := .configuring, devId := h, busId := 0, owns := false }
  rcases g7 with ⟨rfl, e⟩ | ⟨k, b, e', hk, hb', e⟩ <;> rw [e]
  · exact .ok new u g1 g2 (by rw [g3]; exact List.take_of_length_le (by simp [initFrames])) g4 rfl
  · subst hk
    exact .fail k b e' new u g1 g2 (by omega) g3 hb' g4 rfl

/-- How a command `i` from `s` ends in `t`: every path, with everything it changes. -/
inductive CommandEnd (i : Instr) (s t : State) : Prop where
  | refused (k : Kind) : (k = .notInitialized ∨ k = .invalidArgument ∨ k = .illegalCommand) → k ∈ possibleKinds i → t = endedPlain k s →
      (s.session = .ready → i = .deinit → False) → (s.session = .ready → i = .updateScreen → False) → CommandEnd i s t
  | fb (u : State) : s.session = .ready → isFramebuffer i = true → t = endedPlain .ok u →
      u = { s with fb := u.fb, result := u.result, curX := u.curX, curY := u.curY, diag := u.diag } →
      (match i with
        | .getPixel x y => u.result = (memRead s.fb (pixelIndex x.toNat y.toNat)).getLsbD (pixelBit y.toNat)
        | _ => u.result = s.result) → CommandEnd i s t
  | upd (u : State) (n : Nat) (new : List Transaction) (k : Kind) (src : ErrSrc) (b : Byte) (st : BitVec 5) (e : Word32) : s.session = .ready → i = .updateScreen →
      SameButBus s u → u.trace = s.trace ++ new → requests new = (screenFrames s).take n → (∀ x ∈ new, x.status = statusWord s) → 1 ≤ n → n ≤ 7 →
      ((k = .ok ∧ src = .none ∧ b = 0 ∧ st = 0 ∧ e = 0) ∨ (k = .outOfMemory ∧ src = .dataFrame ∧ b = 0 ∧ e = 0) ∨ (k = .busTransactionFailed ∧ (src = .commandFrame ∨ (src = .dataFrame ∧ b = 0)))) →
      t = ended k src b st e { u with panelWinKnown := k == .ok } → CommandEnd i s t
  | deinitOwning (w : State) (a b : Answer) (c : Completion) : s.session = .ready → i = .deinit → s.owns = true → SameButBus s w →
      w.trace = s.trace ++ [⟨.devRemove s.devId, a, statusWord s⟩, ⟨.busDelete s.busId, b, statusWord s⟩] →
      (c = completionOk ∨ ∃ e, c = resourceFailed .devRemove e ∨ c = resourceFailed .busDelete e) →
      t = finish c (closeSession w) → CommandEnd i s t
  | deinitBorrowed : s.session = .ready → i = .deinit → s.owns = false → t = complete (closeSession s) → CommandEnd i s t
  | borrow (h : Word32) : (s.session = .uninit ∨ s.session = .configuring) → i = .initBorrowing h → h ≠ 0 → InitBorrowingEnd h s t → CommandEnd i s t
  | own (a b : Byte) : (s.session = .uninit ∨ s.session = .configuring) → i = .initOwning a b → InitOwningEnd a b s t → CommandEnd i s t

/-- Everything a command can do. -/
theorem after_commandEnd (i : Instr) (s : State) : CommandEnd i s (after i s) := by
  rcases after_paths i s with ⟨k, h1, h2, h3, h4, h5⟩ | ⟨hr, h1, u, h2, h3, h4⟩ | ⟨hr, rfl, h⟩ | ⟨hr, rfl, h⟩ | ⟨hs, h, rfl, h0, e⟩ | ⟨hs, a, b, rfl, e⟩
  · exact .refused k h1 h2 h3 h4 h5
  · exact .fb u hr h1 h2 h3 h4
  · rw [h]
    obtain ⟨u, n, h1, ⟨new, h2, h2', h2''⟩, h3, h4, h5⟩ := updateScreen_cases s
    rcases h5 with ⟨rfl, e⟩ | ⟨k, b, e', hk, hb, e⟩ | ⟨rfl, e⟩ | ⟨rfl, e', e⟩ <;> rw [e]
    · exact .upd u 7 new .ok .none 0 0 0 hr rfl h1 h2 h2' h2'' (by decide) (by decide) (.inl ⟨rfl, rfl, rfl, rfl, rfl⟩) rfl
    · exact .upd u n new .busTransactionFailed .commandFrame b (BitVec.ofNat 5 k) e' hr rfl h1 h2 h2' h2'' h3 h4 (.inr (.inr ⟨rfl, .inl rfl⟩)) rfl
    · exact .upd u 6 new .outOfMemory .dataFrame 0 6 0 hr rfl h1 h2 h2' h2'' (by decide) (by decide) (.inr (.inl ⟨rfl, rfl, rfl, rfl⟩)) rfl
    · exact .upd u 7 new .busTransactionFailed .dataFrame 0 6 e' hr rfl h1 h2 h2' h2'' (by decide) (by decide) (.inr (.inr ⟨rfl, .inr ⟨rfl, rfl⟩⟩)) rfl
  · rw [h]
    cases ho : s.owns with
    | true =>
      obtain ⟨c, w, a, b, h1, h2, h3, h4⟩ := deinit_owning_cases ho
      exact .deinitOwning w a b c hr rfl ho h1 h2 h3 h4
    | false => exact .deinitBorrowed hr rfl ho (deinit_borrowed ho)
  · rw [e]; exact .borrow h hs rfl h0 (initBorrowing_end h s)
  · rw [e]; exact .own a b hs rfl (initOwning_end a b s)

/-- A command only appends to the trace (00_scope.md R17). -/
theorem after_trace_grows (i : Instr) (s : State) : ∃ new, (after i s).trace = s.trace ++ new := by
  have h := after_commandEnd i s
  generalize after i s = t at h
  cases h with
  | refused k h1 h2 h3 h4 h5 => subst h3; exact ⟨[], (List.append_nil _).symm⟩
  | fb u hr h1 h2 h3 h4 => subst h2; rw [h3]; exact ⟨[], (List.append_nil _).symm⟩
  | upd u n new k src b st e hr hi h1 h2 h3 h4 h5 h6 h7 h8 => subst h8; exact ⟨_, h2⟩
  | deinitOwning w a b c hr hi ho h1 h2 h3 h4 => subst h4; exact ⟨_, h2⟩
  | deinitBorrowed hr hi ho h => subst h; exact ⟨[], (List.append_nil _).symm⟩
  | borrow h hs hi h0 hend =>
    cases hend with
    | ok new u h1 h2 h3 h4 h5 => subst h5; exact ⟨_, h2⟩
    | fail k b e new u h1 h2 h3 h4 h5 h6 h7 => subst h7; exact ⟨_, h2⟩
  | own a b hs hi hend =>
    cases hend with
    | noBus e u h1 h2 h3 => subst h3; exact ⟨_, h2⟩
    | noDev bus e a u h1 h2 h3 => subst h3; exact ⟨_, h2⟩
    | ok bus dev new u hb hd h1 h2 h3 h4 h5 => subst h5; exact ⟨_, by rw [List.append_assoc] at h2; exact h2⟩
    | undone bus dev k b e a1 a2 new u hb hd h1 hk h2 h3 hbyte h4 h5 =>
      subst h5; exact ⟨_, by rw [List.append_assoc, List.append_assoc] at h2; exact h2⟩

/-- A command ends idle, with `SEQ` 0 (60_exceptions.md R242, R243). -/
theorem after_idle (i : Instr) (s : State) : (after i s).busy = false ∧ (after i s).seq = 0 := by
  have h := after_commandEnd i s
  generalize after i s = t at h
  cases h with
  | refused k h1 h2 h3 h4 h5 => subst h3; exact ⟨rfl, rfl⟩
  | fb u hr h1 h2 h3 h4 => subst h2; exact ⟨rfl, rfl⟩
  | upd u n new k src b st e hr hi h1 h2 h3 h4 h5 h6 h7 h8 => subst h8; exact ⟨rfl, rfl⟩
  | deinitOwning w a b c hr hi ho h1 h2 h3 h4 => subst h4; exact ⟨rfl, rfl⟩
  | deinitBorrowed hr hi ho h => subst h; exact ⟨rfl, rfl⟩
  | borrow h hs hi h0 hend => cases hend <;> (subst_vars; exact ⟨rfl, rfl⟩)
  | own a b hs hi hend => cases hend <;> (subst_vars; exact ⟨rfl, rfl⟩)

end Sys2Proof.Machine
end

