-- ==== Sys2Proof/Laws/PerInstr.lean ====
section
/-! SUPPORT. Per instruction: the opcode, and the length in bytes, of its encoding (30_encoding.md R84, R88). -/

namespace Sys2Proof.Laws

/-- The opcode of an instruction (30_encoding.md R84). -/
def opcode : Instr → Byte
  | .initOwning _ _ => 0x01
  | .initBorrowing _ => 0x02
  | .deinit => 0x03
  | .setPixel _ _ _ => 0x10
  | .getPixel _ _ => 0x11
  | .drawChar _ _ _ => 0x12
  | .drawText _ _ _ _ => 0x13
  | .clearArea _ _ _ _ => 0x14
  | .clearDisplay => 0x15
  | .updateScreen => 0x20

/-- The encoded word carries the instruction's opcode, and announces the payload that follows it. -/
def EncodedOpcode.Statement (i : Instr) : Prop :=
  i.wf = true → opcodeOf (encodeWord i) = opcode i ∧ payloadLength (encodeWord i) = i.payload.length

theorem EncodedOpcode.initOwning (scl sda : Byte) : EncodedOpcode.Statement (.initOwning scl sda) := fun _ => by
  simp [encodeWord, opcode, payloadLength, drawTextOpcode, Instr.payload]

theorem EncodedOpcode.initBorrowing (handle : Word32) : EncodedOpcode.Statement (.initBorrowing handle) := fun _ => by
  simp [encodeWord, opcode, payloadLength, drawTextOpcode, Instr.payload]

theorem EncodedOpcode.deinit : EncodedOpcode.Statement .deinit := fun _ => by
  simp [encodeWord, opcode, payloadLength, drawTextOpcode, Instr.payload]

theorem EncodedOpcode.setPixel (x y : Byte) (on : Bool) : EncodedOpcode.Statement (.setPixel x y on) := fun _ => by
  simp [encodeWord, opcode, payloadLength, drawTextOpcode, Instr.payload]

theorem EncodedOpcode.getPixel (x y : Byte) : EncodedOpcode.Statement (.getPixel x y) := fun _ => by
  simp [encodeWord, opcode, payloadLength, drawTextOpcode, Instr.payload]

theorem EncodedOpcode.drawChar (c x pg : Byte) : EncodedOpcode.Statement (.drawChar c x pg) := fun _ => by
  simp [encodeWord, opcode, payloadLength, drawTextOpcode, Instr.payload]

theorem EncodedOpcode.drawText (x pg : Byte) (sp : Bool) (payload : List Byte) :
    EncodedOpcode.Statement (.drawText x pg sp payload) := fun h => by
  have hlen : payload.length < 65536 := by simpa [Instr.wf] using h
  simp only [encodeWord, opcode, payloadLength, drawTextOpcode, Instr.payload, opcodeOf_packWord, fieldLen_packWord,
    if_true, BitVec.toNat_setWidth, BitVec.toNat_ofNat, true_and]
  omega

theorem EncodedOpcode.clearArea (x pg wd ht : Byte) : EncodedOpcode.Statement (.clearArea x pg wd ht) := fun _ => by
  simp [encodeWord, opcode, payloadLength, drawTextOpcode, Instr.payload]

theorem EncodedOpcode.clearDisplay : EncodedOpcode.Statement .clearDisplay := fun _ => by
  simp [encodeWord, opcode, payloadLength, drawTextOpcode, Instr.payload]

theorem EncodedOpcode.updateScreen : EncodedOpcode.Statement .updateScreen := fun _ => by
  simp [encodeWord, opcode, payloadLength, drawTextOpcode, Instr.payload]

end Sys2Proof.Laws
end

