-- ==== Sys2Proof/Laws/Text.lean ====
section
/-! SUPPORT. Where the walk of DRAW_TEXT puts its characters (41_framebuffer.md R129, consequences (a) to (c)). -/

namespace Sys2Proof.Machine

open Config Safety

/-- At least one character goes on a page. -/
theorem charsPerPage_pos (x : Nat) : 0 < charsPerPage x := by unfold charsPerPage; split <;> omega

/-- From one character's place to the next: a wrap where the next column is past 122, and six columns otherwise. -/
theorem text_next (x pg j : Nat) :
    (123 ≤ textColumn x j + 6 →
      x = textColumn x (j + 1) ∧ textPage x pg j + 1 = textPage x pg (j + 1) ∧ charsPerPage x ≤ j + 1) ∧
    (¬ 123 ≤ textColumn x j + 6 →
      textColumn x j + 6 = textColumn x (j + 1) ∧ textPage x pg j = textPage x pg (j + 1) ∧
      (j < charsPerPage x → j + 1 < charsPerPage x)) := by
  have hn := charsPerPage_pos x
  have hc : x ≤ 122 → charsPerPage x = (122 - x)/6 + 1 := fun h => by simp [charsPerPage, h]
  have hc1 : ¬ x ≤ 122 → charsPerPage x = 1 := fun h => by simp [charsPerPage, h]
  unfold textColumn textPage
  generalize charsPerPage x = n at *
  have hd := Nat.div_add_mod j n
  have hm := Nat.mod_lt j hn
  by_cases hr : j % n + 1 < n
  · have h1 : (j+1) % n = j % n + 1 := by
      rw [Nat.add_mod, Nat.mod_eq_of_lt (a := 1) (by omega), Nat.mod_eq_of_lt hr]
    have h2 : (j+1)/n = j/n := by
      apply Nat.div_eq_of_lt_le
      · rw [Nat.mul_comm]; omega
      · rw [Nat.add_mul, Nat.mul_comm]; omega
    rw [h1, h2]
    have hx : x ≤ 122 := by by_contra h; have := hc1 h; omega
    have := hc hx
    rw [if_pos hx, if_pos hx]
    constructor
    · intro h; omega
    · intro _; refine ⟨by omega, rfl, ?_⟩
      intro hj
      rw [Nat.mod_eq_of_lt hj] at hr; exact hr
  · have h0 : j % n + 1 = n := by omega
    have h1 : (j+1) % n = 0 := by
      rw [← Nat.div_add_mod j n, Nat.add_assoc, h0]; simp
    have h2 : (j+1)/n = j/n + 1 := by
      conv_lhs => rw [← Nat.div_add_mod j n, Nat.add_assoc, h0, Nat.mul_add_div hn, Nat.div_self hn]
    rw [h1, h2]
    constructor
    · intro _
      refine ⟨by omega, by split <;> omega, ?_⟩
      have : j % n ≤ j := Nat.mod_le _ _
      omega
    · intro h
      exfalso
      by_cases hx : x ≤ 122
      · have := hc hx; omega
      · have := hc1 hx; omega

/-- A later character is on no earlier page. -/
theorem textPage_mono (x pg : Nat) {i j : Nat} (h : i ≤ j) : textPage x pg i ≤ textPage x pg j := by
  unfold textPage
  split
  · exact Nat.add_le_add_left (Nat.div_le_div_right h) _
  · omega

/-- No character is above the starting page. -/
theorem textPage_ge (x pg j : Nat) : pg ≤ textPage x pg j := by unfold textPage; split; exact Nat.le_add_right _ _; omega

/-- The framebuffer after the characters from number `j` on. -/
def textMemFrom (rom : Vector Glyph 95) (x pg j : Nat) (str : List Byte) (m : Memory) : Memory :=
  (str.zipIdx j).foldl (fun m cj =>
    if textPage x pg cj.2 < 8 then glyphMem rom m cj.1 (textColumn x cj.2) (textPage x pg cj.2) else m) m

/-- The records of the characters from number `j` on. -/
def textDiagFrom (x pg j : Nat) (str : List Byte) : List Diag :=
  if x ≤ 122 ∧ 8 ≤ pg then ((str.zipIdx j).take (charsPerPage x - j)).map fun cj => ⟨cj.1, textColumn x cj.2, pg⟩
  else []

/-- Past the last page nothing is drawn. -/
theorem textMemFrom_of_off (rom : Vector Glyph 95) (x pg : Nat) : ∀ (str : List Byte) (j : Nat) (m : Memory),
    8 ≤ textPage x pg j → textMemFrom rom x pg j str m = m
  | [], _, _, _ => rfl
  | c :: cs, j, m, h => by
    have := textMemFrom_of_off rom x pg cs (j+1) m (le_trans h (textPage_mono x pg (Nat.le_succ j)))
    unfold textMemFrom at *
    rw [List.zipIdx_cons, List.foldl_cons]
    simp only
    rw [if_neg (by omega)]
    exact this

/-- The layout registers stand where the walk finds them before character `j`: a wrap is due, or the character's
own place is reached. -/
def AtChar (x pg j : Nat) (s : State) : Prop :=
  if 123 ≤ s.curX then x = textColumn x j ∧ s.curY + 1 = textPage x pg j ∧ (x ≤ 122 → charsPerPage x ≤ j)
  else s.curX = textColumn x j ∧ s.curY = textPage x pg j ∧ (pg < 8 → s.curY < 8) ∧ (8 ≤ pg → j < charsPerPage x)

/-- The walk from character `j` on: what it draws and what it records. -/
theorem layoutWalk_spec (x pg : Nat) : ∀ (str : List Byte) (j : Nat) (s : State), AtChar x pg j s →
    (layoutWalk x str s).fb = textMemFrom s.glyphRom x pg j str s.fb ∧
    (layoutWalk x str s).diag = s.diag ++ textDiagFrom x pg j str
  | [], j, s, _ => by simp [layoutWalk, textMemFrom, textDiagFrom]
  | c :: cs, j, s, h => by
    have key : ∀ t : State, t.curX = textColumn x j → t.curY = textPage x pg j → t.fb = s.fb → t.diag = s.diag →
        t.glyphRom = s.glyphRom → (textPage x pg j < 8 ∨ (8 ≤ pg ∧ j < charsPerPage x ∧ x ≤ 122)) →
        (layoutWalk x cs (drawAdvance c t)).fb = textMemFrom s.glyphRom x pg j (c :: cs) s.fb ∧
        (layoutWalk x cs (drawAdvance c t)).diag = s.diag ++ textDiagFrom x pg j (c :: cs) := by
      intro t h1 h2 h3 h4 h5 h6
      obtain ⟨ts1, ts2⟩ := text_next x pg j
      have hx' : (drawAdvance c t).curX = textColumn x j + 6 := by
        simp [drawAdvance, GLYPH_ADV, h1]
      have hy' : (drawAdvance c t).curY = textPage x pg j := by
        unfold drawAdvance drawGlyph; split <;> simp [h2]
      have hrom : (drawAdvance c t).glyphRom = s.glyphRom := by
        unfold drawAdvance drawGlyph; split <;> simp [h5]
      have hge := textPage_ge x pg j
      have hp : AtChar x pg (j+1) (drawAdvance c t) := by
        unfold AtChar
        rw [hx', hy']
        by_cases hw : 123 ≤ textColumn x j + 6
        · rw [if_pos hw]
          obtain ⟨a, b, d⟩ := ts1 hw
          exact ⟨a, b, fun _ => d⟩
        · rw [if_neg hw]
          obtain ⟨a, b, d⟩ := ts2 hw
          exact ⟨a, b, fun _ => by omega, fun _ => d (by omega)⟩
      obtain ⟨i1, i2⟩ := layoutWalk_spec x pg cs (j+1) _ hp
      rw [i1, i2, hrom]
      rcases h6 with h6 | ⟨h6, h7, h8⟩
      · constructor
        · unfold textMemFrom
          rw [List.zipIdx_cons, List.foldl_cons]
          simp only
          rw [if_pos h6]
          congr 1
          unfold drawAdvance drawGlyph
          rw [if_neg (by simp only [PAGES]; omega)]
          simp [h1, h2, h3, h5]
        · unfold textDiagFrom
          rw [if_neg (by omega), if_neg (by omega)]
          unfold drawAdvance drawGlyph
          rw [if_neg (by simp only [PAGES]; omega)]
          simp [h4]
      · constructor
        · rw [textMemFrom_of_off _ _ _ _ _ _ (le_trans (by omega) (textPage_mono x pg (Nat.le_succ j))),
            textMemFrom_of_off _ _ _ _ _ _ (by omega)]
          unfold drawAdvance drawGlyph
          rw [if_pos (by simp only [PAGES]; omega)]
          simp [h3]
        · unfold textDiagFrom
          rw [if_pos ⟨h8, h6⟩, if_pos ⟨h8, h6⟩]
          have e : charsPerPage x - j = charsPerPage x - (j+1) + 1 := by omega
          have ep : textPage x pg j = pg := by
            unfold textPage
            rw [if_pos h8, Nat.div_eq_of_lt h7]; rfl
          rw [e, List.zipIdx_cons, List.take_succ_cons, List.map_cons]
          unfold drawAdvance drawGlyph
          rw [if_pos (by simp only [PAGES]; omega)]
          simp [h1, h2, h4, ep]
    unfold layoutWalk
    unfold AtChar at h
    by_cases hw : 123 ≤ s.curX
    · rw [if_pos hw] at h
      obtain ⟨h1, h2, h3⟩ := h
      rw [if_pos (by simp only [GLYPH_W, W]; omega)]
      by_cases hp : textPage x pg j < 8
      · rw [if_neg (by simp only [PAGES, wrapLine]; omega)]
        exact key (wrapLine x s) h1 h2 rfl rfl rfl (.inl hp)
      · rw [if_pos (by simp only [PAGES, wrapLine]; omega)]
        rw [textMemFrom_of_off _ _ _ _ _ _ (by omega)]
        refine ⟨rfl, ?_⟩
        unfold textDiagFrom
        split
        · have := h3 (by omega)
          have : charsPerPage x - j = 0 := by omega
          simp [this, wrapLine]
        · simp [wrapLine]
    · rw [if_neg hw] at h
      obtain ⟨h1, h2, h3, h4⟩ := h
      rw [if_neg (by simp only [GLYPH_W, W]; omega)]
      have : x ≤ textColumn x j := by unfold textColumn; omega
      exact key s h1 h2 rfl rfl rfl (by
        by_cases hp : pg < 8
        · exact .inl (by have := h3 hp; omega)
        · exact .inr ⟨by omega, h4 (by omega), by omega⟩)

end Sys2Proof.Machine
end

