-- ==== Sys2Proof/Tests/Slice0.lean ====
section
/-! SUPPORT. The model's own tests: the refusal of ill-formed terms, the decoding of words written out from the
spec's tables, one step per command against the spec's vectors (95_test_vectors.md), and for every obligation
with hypotheses a concrete state and operands that meet them. -/

namespace Sys2Proof.Tests

open Sys2Proof.Machine Sys2Proof.Safety

/-! ## Helpers -/

/-- The answers of a transport that never fails: `n` successes with handle 5. -/
def oks (n : Nat) : List Config.Reply := List.replicate n (.ok ⟨5, by decide⟩)

/-- `n` handles, for the statements that name the handles of successful answers. -/
def handles (n : Nat) : List Config.Handle := List.replicate n ⟨5, by decide⟩

/-- Handle 0xB1 of a created bus, and handle 0xD1 of an attached device, as in the spec's vectors. -/
def busB1 : Config.Handle := ⟨0xB1, by decide⟩
def devD1 : Config.Handle := ⟨0xD1, by decide⟩

/-- A borrowed READY session with the framebuffer `fb`. -/
def readyB (fb : Memory) : State :=
  { State.reset with session := .ready, devId := 0x1234, fb := fb, params := { Params.reset with textMax := 32 } }

/-- An owning READY session whose transport answers `rs`. -/
def readyO (rs : List Config.Reply) : State :=
  { State.reset with session := .ready, owns := true, devId := 0xD1, busId := 0xB1, replies := rs }

/-- A controller after reset whose transport answers `rs`. -/
def uninit (rs : List Config.Reply) : State :=
  { State.reset with replies := rs, params := { Params.reset with busClkHz := 400000, timeUnit := 1 } }

/-- A closed session. -/
def closed : State := { State.reset with session := .closed }

/-- A state whose host sends `bytes` and nothing else. -/
def sending (bytes : List Byte) (s : State) : State := { s with host := [.send bytes] }

/-- An outcome is a next state with the property `p`. -/
def answers (o : Host.Outcome State Fault Refusal) (p : State → Bool) : Bool :=
  match o with
  | .next t => p t
  | .fault _ => false
  | .refused _ => false

theorem exists_next {o : Host.Outcome State Fault Refusal} {p : State → Bool} (h : answers o p = true) :
    ∃ t, o = .next t := by
  cases o with
  | next t => exact ⟨t, rfl⟩
  | fault f => cases h
  | refused r => cases h

/-- The completion fields of a state, and its session. -/
def ends (t : State) (k : Kind) (src : ErrSrc) (byte : Byte) (step : BitVec 5) (terr : Word32) (session : Session) : Bool :=
  t.kind == k && t.errSrc == src && t.errByte == byte && t.errStep == step && t.terr == terr && t.session == session
    && t.busy == false && t.seq == 0

/-- The payloads of the frames of a trace, in order, and nothing for the other requests. -/
def frames (t : State) : List (List Byte) :=
  t.trace.filterMap fun x => match x.request with
    | .transmit _ bs _ => some bs
    | .busCreate _ _ | .devAdd _ _ _ | .devRemove _ | .busDelete _ => none

/-! ## Well-formedness (30_encoding.md R82) -/

/-- A payload that `LEN` cannot announce is refused: 65536 bytes. -/
theorem test_wf_refuses_a_payload_longer_than_len : (Instr.drawText 0 0 true (List.replicate 65536 0x41)).wf = false := by
  simp only [Instr.wf, List.length_replicate]; decide

theorem test_wf_accepts_the_longest_payload : (Instr.drawText 0 0 true (List.replicate 65535 0x41)).wf = true := by
  simp only [Instr.wf, List.length_replicate]; decide

/-! ## Decoding: words written out from 30_encoding.md R80, R81 and R84, one per command -/

/-- O: opcode 0x01, SCL = 22, SDA = 21. -/
theorem test_decode_initOwning :
    decodeWord 0b0000000100010110000101010000000000000000000000000000000000000000 [] = .ok (.initOwning 22 21) := by
  decide +kernel
/-- H: opcode 0x02, HANDLE = 0x80001234 in bits 31:0. -/
theorem test_decode_initBorrowing :
    decodeWord 0b0000001000000000000000000000000010000000000000000001001000110100 [] = .ok (.initBorrowing 0x80001234) := by
  decide +kernel
/-- N: opcode 0x03. -/
theorem test_decode_deinit :
    decodeWord 0b0000001100000000000000000000000000000000000000000000000000000000 [] = .ok .deinit := by decide +kernel
/-- P: opcode 0x10, X = 5, Y = 10, ON = bit 32. -/
theorem test_decode_setPixel :
    decodeWord 0b0001000000000101000010100000000100000000000000000000000000000000 [] = .ok (.setPixel 5 10 true) := by
  decide +kernel
/-- Q: opcode 0x11, X = 127, Y = 63. -/
theorem test_decode_getPixel :
    decodeWord 0b0001000101111111001111110000000000000000000000000000000000000000 [] = .ok (.getPixel 127 63) := by
  decide +kernel
/-- G: opcode 0x12, X = 10, PG = 2, CH = 200 in field C. -/
theorem test_decode_drawChar :
    decodeWord 0b0001001000001010000000101100100000000000000000000000000000000000 [] = .ok (.drawChar 200 10 2) := by
  decide +kernel
/-- T: opcode 0x13, X = 120, PG = 0, SP = bit 32, LEN = 2. -/
theorem test_decode_drawText :
    decodeWord 0b0001001101111000000000000000000100000000000000000000000000000010 [0x41, 0x42]
      = .ok (.drawText 120 0 true [0x41, 0x42]) := by decide +kernel
/-- R: opcode 0x14, X = 120, PG = 7, WD = 9, HT = 1. -/
theorem test_decode_clearArea :
    decodeWord 0b0001010001111000000001110000100100000001000000000000000000000000 [] = .ok (.clearArea 120 7 9 1) := by
  decide +kernel
/-- N: opcode 0x15. -/
theorem test_decode_clearDisplay :
    decodeWord 0b0001010100000000000000000000000000000000000000000000000000000000 [] = .ok .clearDisplay := by decide +kernel
/-- N: opcode 0x20. -/
theorem test_decode_updateScreen :
    decodeWord 0b0010000000000000000000000000000000000000000000000000000000000000 [] = .ok .updateScreen := by decide +kernel

/-- Undefined opcodes (V-E1 to V-E3) and set reserved bits (V-E4 to V-E8) are rejected, each by its name. -/
theorem test_decode_rejects :
    decodeWord 0x0000000000000000 [] = .error .undefinedOpcode ∧ decodeWord 0xFF00000000000000 [] = .error .undefinedOpcode ∧
    decodeWord 0x0400000000000000 [] = .error .undefinedOpcode ∧ decodeWord 0x1000000200000000 [] = .error .reservedBits ∧
    decodeWord 0x10050A0100000001 [] = .error .reservedBits ∧ decodeWord 0x2000000000000001 [] = .error .reservedBits ∧
    decodeWord 0x0200000100000000 [] = .error .reservedBits ∧
    decodeWord 0x1300000100010003 [1, 2, 3] = .error .reservedBits ∧ decodeBytes [0x20, 0] = .error .incomplete := by
  decide +kernel

/-- The extreme legal words (V-E16, V-E18, V-E20 to V-E22). -/
theorem test_decode_extremes :
    decodeWord 0x10FFFF0100000000 [] = .ok (.setPixel 255 255 true) ∧
    decodeWord 0x12FFFFFF00000000 [] = .ok (.drawChar 255 255 255) ∧
    decodeWord 0x14FFFFFFFF000000 [] = .ok (.clearArea 255 255 255 255) ∧
    decodeWord 0x02000000FFFFFFFF [] = .ok (.initBorrowing 0xFFFFFFFF) ∧
    decodeWord 0x01FFFF0000000000 [] = .ok (.initOwning 255 255) ∧
    payloadLength 0x13FFFF010000FFFF = 65535 := by decide +kernel

/-- A table word whose `LEN` announces bytes the table gives no room for is laid out with zero bytes. -/
theorem test_decode_table_word :
    decodeTableWord 64 0x1300000100000002 = some (.drawText 0 0 true [0, 0]) ∧ decodeTableWord 64 0 = none := by
  decide +kernel

/-! ## One step per command (95_test_vectors.md, Part 2) -/

/-- V-S8: INIT_OWNING, all ok. -/
theorem test_initOwning : answers (exec (.initOwning 22 21) (uninit (.ok busB1 :: .ok devD1 :: oks 26)))
    (fun t => ends t .ok .none 0 0 0 .ready && t.owns && t.devId == 0xD1 && t.busId == 0xB1
      && frames t == [0xAE, 0xD5, 0x80, 0xA8, 0x3F, 0xD3, 0x00, 0x40, 0x8D, 0x14, 0x20, 0x00, 0xA1,
          0xC8, 0xDA, 0x12, 0x81, 0xCF, 0xD9, 0xF1, 0xDB, 0x40, 0xA4, 0xA6, 0x2E, 0xAF].map fun b => [0x00, b]) = true := by
  decide +kernel
/-- V-S3: INIT_OWNING whose third frame fails. -/
theorem test_initOwning_rollback : answers (exec (.initOwning 22 21)
      (uninit ([.ok busB1, .ok devD1] ++ oks 2 ++ [.fail 0x107] ++ oks 2)))
    (fun t => ends t .busTransactionFailed .commandFrame 0x80 2 0x107 .uninit && !t.owns && t.devId == 0 && t.busId == 0
      && requests t.trace == [.busCreate 22 21, .devAdd 0xB1 0x3C 400000,
          .transmit 0xD1 [0, 0xAE] ⟨100, 1⟩, .transmit 0xD1 [0, 0xD5] ⟨100, 1⟩,
          .transmit 0xD1 [0, 0x80] ⟨100, 1⟩, .devRemove 0xD1, .busDelete 0xB1]) = true := by
  decide +kernel
/-- V-S2: INIT_BORROWING, all ok. -/
theorem test_initBorrowing : answers (exec (.initBorrowing 0x1234) (uninit (oks 26)))
    (fun t => ends t .ok .none 0 0 0 .ready && !t.owns && t.devId == 0x1234 && t.busId == 0 && t.trace.length == 26) = true := by
  decide +kernel
/-- V-S7: INIT_BORROWING whose last frame fails. -/
theorem test_initBorrowing_fails : answers (exec (.initBorrowing 0x1234) (uninit (oks 25 ++ [.fail 5])))
    (fun t => ends t .busTransactionFailed .commandFrame 0xAF 25 5 .uninit && t.devId == 0 && t.trace.length == 26) = true := by
  decide +kernel
/-- V-S9: DEINIT of an owning session whose device removal fails. -/
theorem test_deinit_owning : answers (exec .deinit (readyO [.fail 0x55, .ok devD1]))
    (fun t => ends t .busTransactionFailed .devRemove 0 0 0x55 .closed && t.owns && t.devId == 0 && t.busId == 0
      && requests t.trace == [.devRemove 0xD1, .busDelete 0xB1]) = true := by decide +kernel
/-- V-S12: DEINIT of a borrowed session. -/
theorem test_deinit_borrowed : answers (exec .deinit (readyB []))
    (fun t => ends t .ok .none 0 0 0 .closed && !t.owns && t.devId == 0 && t.trace == []) = true := by decide +kernel
/-- V-F1: SET_PIXEL 5, 10, 1 from a zero framebuffer. -/
theorem test_setPixel : answers (exec (.setPixel 5 10 true) (readyB []))
    (fun t => ends t .ok .none 0 0 0 .ready && t.fb == [(133, 0x04)]) = true := by decide +kernel
/-- V-F1, neighbour bits: SET_PIXEL 0, 3, 0 from `FB[0] = 0xFF`. -/
theorem test_setPixel_off : answers (exec (.setPixel 0 3 false) (readyB [(0, 0xFF)]))
    (fun t => t.fb == [(0, 0xF7)]) = true := by decide +kernel
/-- V-F2: GET_PIXEL 127, 63 where `FB[1023] = 0x80`. -/
theorem test_getPixel : answers (exec (.getPixel 127 63) (readyB [(1023, 0x80)]))
    (fun t => ends t .ok .none 0 0 0 .ready && t.result && statusWord t == 0xA0) = true := by decide +kernel
/-- V-F2: GET_PIXEL 0, 64, with RESULT 1 before. -/
theorem test_getPixel_out_of_range : answers (exec (.getPixel 0 64) { readyB [] with result := true })
    (fun t => ends t .invalidArgument .none 0 0 0 .ready && t.result) = true := by decide +kernel
/-- V-F3b: DRAW_CHAR 'A', 124, 0: the last glyph column is dropped. -/
theorem test_drawChar_clipped : answers (exec (.drawChar 0x41 124 0) (readyB []))
    (fun t => ends t .ok .none 0 0 0 .ready && t.fb == [(124, 0x7E), (125, 0x11), (126, 0x11), (127, 0x11)]
      && t.diag == []) = true := by decide +kernel
/-- V-F3g: DRAW_CHAR 'A', 200, 255. -/
theorem test_drawChar_off_screen : answers (exec (.drawChar 0x41 200 255) (readyB []))
    (fun t => ends t .ok .none 0 0 0 .ready && t.fb == [] && t.diag == [⟨0x41, 200, 255⟩]) = true := by decide +kernel
/-- P4, step 3: DRAW_TEXT 120, 0, "AAA". -/
theorem test_drawText_wraps : answers (exec (.drawText 120 0 true [0x41, 0x41, 0x41]) (readyB []))
    (fun t => ends t .ok .none 0 0 0 .ready
      && t.fb == [(120, 0x7E), (121, 0x11), (122, 0x11), (123, 0x11), (124, 0x7E),
          (248, 0x7E), (249, 0x11), (250, 0x11), (251, 0x11), (252, 0x7E),
          (376, 0x7E), (377, 0x11), (378, 0x11), (379, 0x11), (380, 0x7E)]) = true := by decide +kernel
/-- V-T8: DRAW_TEXT 0, 8, 25 times 'A': 21 records, nothing drawn. -/
theorem test_drawText_off_screen : answers (exec (.drawText 0 8 true (List.replicate 25 0x41)) (readyB []))
    (fun t => ends t .ok .none 0 0 0 .ready && t.fb == []
      && t.diag == (List.range 21).map fun j => ⟨0x41, 6 * j, 8⟩) = true := by decide +kernel
/-- P2, step 6: CLEAR_AREA 0, 1, 8, 1. -/
theorem test_clearArea : answers (exec (.clearArea 0 1 8 1) (readyB [(127, 1), (128, 2), (135, 4), (136, 8)]))
    (fun t => ends t .ok .none 0 0 0 .ready && t.fb == [(127, 1), (136, 8)]) = true := by decide +kernel
/-- V-F5: CLEAR_AREA 200, 0, 200, 1 is rejected: the sum does not wrap. -/
theorem test_clearArea_rejects : answers (exec (.clearArea 200 0 200 1) (readyB [(0, 1)]))
    (fun t => ends t .invalidArgument .none 0 0 0 .ready && t.fb == [(0, 1)]) = true := by decide +kernel
/-- V-F5: CLEAR_DISPLAY. -/
theorem test_clearDisplay : answers (exec .clearDisplay (readyB [(0, 1), (1023, 0xFF)]))
    (fun t => ends t .ok .none 0 0 0 .ready && t.fb == [] && t.trace == []) = true := by decide +kernel
/-- V-U1: UPDATE_SCREEN, all ok. -/
theorem test_updateScreen : answers (exec .updateScreen { readyB [(0, 0x7E), (1023, 1)] with replies := oks 7, allocs := [true] })
    (fun t => ends t .ok .none 0 0 0 .ready && t.panelWinKnown
      && frames t == [[0, 0x21], [0, 0], [0, 0x7F], [0, 0x22], [0, 0], [0, 7],
          0x40 :: 0x7E :: (List.replicate 1022 0 ++ [1])]) = true := by decide +kernel
/-- V-U6: UPDATE_SCREEN whose data frame cannot be assembled. -/
theorem test_updateScreen_no_memory : answers (exec .updateScreen { readyB [] with replies := oks 6, allocs := [false] })
    (fun t => ends t .outOfMemory .dataFrame 0 6 0 .ready && !t.panelWinKnown && t.trace.length == 6) = true := by
  decide +kernel

/-- V-E8: an illegal DRAW_TEXT word consumes its three payload bytes, and the next command follows them. -/
theorem test_step_illegal_payload :
    answers (step (sending [0x13, 0, 0, 1, 0, 1, 0, 3, 0x41, 0x42, 0x43, 0x20] (readyB [])))
      (fun t => ends t .illegalCommand .none 0 0 0 .ready && t.fb == [] && t.host == [.send [0x20]]) = true := by
  decide +kernel

/-- A word placed by `withFetchWord` is the command the next step runs. -/
theorem test_withFetchWord : answers (step (State.reset.withFetchWord 64 0x0200000000000000))
    (fun t => ends t .notInitialized .none 0 0 0 .uninit && t.cmd == 0x0200000000000000 && t.host == []) = true := by
  decide +kernel

/-- P4, step 6: block reset of a READY session. -/
theorem test_block_reset : answers (step { readyO [] with host := [.blockReset] })
    (fun t => ends t .ok .none 0 0 0 .uninit && !t.owns && t.devId == 0 && t.busId == 0 && t.trace == []) = true := by
  decide +kernel

/-- R271: block reset while the payload of a DRAW_TEXT is still coming. -/
theorem test_reset_in_payload :
    answers (step { readyO [] with host := [.sendThenReset [0x13, 0, 0, 1, 0, 0, 0, 2, 0x41] 0, .writeTerr 0] })
    (fun t => ends t .ok .none 0 0 0 .uninit && !t.owns && t.devId == 0 && t.trace == [] && t.host == [.writeTerr 0]) = true := by
  decide +kernel

/-! ## Witnesses: states and operands that meet the hypotheses of the obligations -/

theorem witness_DecodeOfEncodeIsTheInstruction : (Instr.drawText 255 255 true [0x41]).wf = true := by decide
theorem witness_LegalWordIsTheEncodingOfItsInstruction :
    [(0x41 : Byte)].length = payloadLength 0x1300000100000001 ∧
    decodeWord 0x1300000100000001 [0x41] = .ok (.drawText 0 0 true [0x41]) := by decide +kernel
theorem witness_ReservedBitCompletesIllegalCommand :
    (sending (bytesOfWord 0x1300000100010001 ++ [0x41] ++ [0x20]) State.reset).busy = false ∧
    [(0x41 : Byte)].length = payloadLength 0x1300000100010001 ∧
    reservedBits (opcodeOf 0x1300000100010001) = some 0x000000FEFFFF0000 ∧
    (0x1300000100010001 : Word) &&& 0x000000FEFFFF0000 ≠ 0 := by decide +kernel
theorem witness_UndefinedOpcodeCompletesIllegalCommand :
    (sending (bytesOfWord 0x2100000000000000 ++ []) State.reset).busy = false ∧
    reservedBits (opcodeOf 0x2100000000000000) = none := by decide +kernel
theorem witness_StepRunsTheDecodedInstruction :
    (sending (bytesOfWord 0x2000000000000000) State.reset).busy = false ∧
    fetchCommand (bytesOfWord 0x2000000000000000) = some ⟨0x2000000000000000, [], []⟩ ∧
    decodeWord 0x2000000000000000 [] = .ok .updateScreen := by decide +kernel
theorem witness_EveryCommandTakesItsPayloadAndCompletes :
    (sending (bytesOfWord 0x1300000000000002 ++ [1, 2] ++ [3]) State.reset).busy = false ∧
    [(1 : Byte), 2].length = payloadLength 0x1300000000000002 := by decide +kernel
theorem witness_BrokenHostDutyStops :
    (sending [0x20] { State.reset with busy := true }).busy = true ∧ (sending [0x20] State.reset).busy = false ∧
    fetchCommand [0x20] = none := by decide
theorem witness_RegisterWritesHaveNoEffect :
    ({ State.reset with host := [.writeStatus 1] } : State).host = .writeStatus 1 :: [] ∧
    ({ State.reset with host := [.writeTerr 1] } : State).host = .writeTerr 1 :: [] ∧ State.reset.host = [] := by decide
theorem witness_PixelDecoderIsABijection : 127 < 128 ∧ 63 < 64 ∧ 1023 < 1024 ∧ 7 < 8 := by decide
theorem witness_SetPixelChangesExactlyOneBit : (readyB [(1023, 1)]).session = .ready ∧ (readyB [(1023, 1)]).fb.wf = true := by
  decide
theorem witness_GetPixelReadsThePixel : (readyB []).session = .ready ∧
    (127#8).toNat < 128 ∧ (63#8).toNat < 64 ∧ 128 ≤ (128#8).toNat ∧ 64 ≤ (64#8).toNat := by decide
theorem witness_SetPixelThenGetPixel : (readyB []).session = .ready ∧ (readyB []).fb.wf = true ∧
    (127#8).toNat < 128 ∧ (63#8).toNat < 64 := by decide
theorem witness_DrawCharWritesTheGlyphClipped : (readyB []).session = .ready ∧ (readyB []).fb.wf = true ∧ (7#8).toNat < 8 ∧
    (123#8).toNat + 4 < 128 ∧ ¬ (124#8).toNat + 4 < 128 := by decide
theorem witness_DrawCharOffScreenOnlyDiagnoses : (readyB []).session = .ready ∧ 8 ≤ (8#8).toNat := by decide
theorem witness_GlyphIndexSubstitutes : 32 ≤ (32#8).toNat ∧ (126#8).toNat ≤ 126 ∧ (31#8).toNat < 32 ∧ 126 < (127#8).toNat := by
  decide
theorem witness_SubstitutedCharacterDrawsTheQuestionMark : (31#8).toNat < 32 ∧ 126 < (127#8).toNat := by decide
theorem witness_DrawTextPlacesEveryCharacter : (readyB []).session = .ready ∧
    (List.replicate 32 (0x41 : Byte)).length ≤ (readyB []).params.textMax := by decide
theorem witness_DrawTextRejectsMalformedText : (readyB []).session = .ready ∧
    (readyB []).params.textMax < (List.replicate 33 (0x41 : Byte)).length := by decide
theorem witness_ClearAreaZeroesExactlyTheRectangle : (readyB []).session = .ready ∧ (readyB []).fb.wf = true ∧
    (0 < (8#8).toNat ∧ 0 < (1#8).toNat ∧ (120#8).toNat + (8#8).toNat ≤ 128 ∧ (7#8).toNat + (1#8).toNat ≤ 8) ∧
    ¬ (0 < (9#8).toNat ∧ 0 < (1#8).toNat ∧ (120#8).toNat + (9#8).toNat ≤ 128 ∧ (7#8).toNat + (1#8).toNat ≤ 8) := by decide
theorem witness_ClearDisplayZeroesEveryByte : (readyB [(0, 1)]).session = .ready := by decide
theorem witness_ClearDisplayIsTheFullClearArea : (readyB [(0, 1)]).fb.wf = true := by decide
theorem witness_NotReadyCompletesNotInitialized : closed.session ≠ .ready ∧ (uninit []).session ≠ .ready ∧
    isInit .updateScreen = false := by decide
theorem witness_FramebufferCommandsMakeNoRequest : isFramebuffer .clearDisplay = true := by decide
theorem witness_DrawingIsIdempotent : (readyB [(0, 1)]).fb.wf = true ∧ ∃ x y on, Instr.setPixel 0 1 true = .setPixel x y on :=
  ⟨by decide, 0, 1, true, rfl⟩
theorem witness_UpdateScreenSendsTheWholeFramebuffer :
    ({ readyB [] with replies := (handles 7).map .ok ++ [], allocs := [true] } : State).session = .ready ∧
    (handles 7).length = 7 ∧
    assemblyOk { readyB [] with replies := (handles 7).map .ok ++ [], allocs := [true] } = true := by decide
theorem witness_UpdateScreenReportsTheFailingCommandFrame :
    ({ readyB [] with replies := (handles 5).map .ok ++ .fail 9 :: [] } : State).session = .ready ∧
    (handles 5).length = 5 ∧ (window { readyB [] with replies := (handles 5).map .ok ++ .fail 9 :: [] })[5]? = some 7 := by
  decide
theorem witness_UpdateScreenReportsTheFailingDataFrame :
    ({ readyB [] with replies := (handles 6).map .ok ++ [], allocs := [false] } : State).session = .ready ∧
    (handles 6).length = 6 ∧ (readyB []).params.allocMayFail = true ∧
    assemblyOk { readyB [] with replies := (handles 6).map .ok ++ .fail 9 :: [], allocs := [true] } = true := by decide
theorem witness_UpdateScreenRequestsAPrefixOfItsFrames : (readyB []).session = .ready := by decide
theorem witness_InitBorrowingConfiguresThePanel : (uninit ((handles 26).map .ok ++ [])).session = .uninit ∧
    (1 : Word32) ≠ 0 ∧ (handles 26).length = 26 ∧
    (uninit ((handles 26).map .ok ++ [])).replies = (handles 26).map .ok ++ [] := by decide
theorem witness_InitBorrowingAbortsAtTheFailingFrame :
    (uninit ((handles 25).map .ok ++ .fail 5 :: [])).session = .uninit ∧ (0xFFFFFFFF : Word32) ≠ 0 ∧
    (handles 25).length = 25 ∧ State.reset.initSeq.toList[25]? = some 0xAF := by decide
theorem witness_InitBorrowingRejectsAnAbsentHandle : (uninit []).session = .uninit := by decide
theorem witness_InitOwningConfiguresThePanel :
    (uninit (.ok busB1 :: .ok devD1 :: ((handles 26).map .ok ++ []))).session = .uninit ∧ (handles 26).length = 26 := by decide
theorem witness_InitOwningRollsBackTheBus :
    (uninit (.fail 0x20 :: [])).session = .uninit ∧ (uninit (.fail 0x20 :: [])).replies = .fail 0x20 :: [] ∧
    (uninit [.ok busB1, .fail 0x21, .fail 0x99]).replies = .ok busB1 :: .fail 0x21 :: .fail 0x99 :: [] := by decide
theorem witness_InitOwningRollsBackDeviceAndBus :
    (uninit (.ok busB1 :: .ok devD1 :: ((handles 25).map .ok ++ .fail 5 :: .fail 6 :: .fail 7 :: []))).session = .uninit ∧
    (handles 25).length = 25 ∧ State.reset.initSeq.toList[25]? = some 0xAF := by decide
theorem witness_InitFramesAreNeverReordered : (uninit []).session = .uninit ∧ (1 : Word32) ≠ 0 ∧
    (uninit [.ok busB1, .fail 5, .fail 6]).session = .uninit := by decide
theorem witness_InitInReadyIsIllegal : (readyO []).session = .ready ∧ isInit (.initOwning 22 21) = true ∧
    isInit (.initBorrowing 0x1234) = true := by decide
theorem witness_ClosedIsTerminal : (sending (bytesOfWord 0x0200000000000000) closed).session = .closed ∧
    (sending (bytesOfWord 0x0200000000000000) closed).busy = false ∧
    fetchCommand (bytesOfWord 0x0200000000000000) = some ⟨0x0200000000000000, [], []⟩ := by decide +kernel
theorem witness_DeinitReleasesWhatItOwns : (readyO [.fail 1, .fail 2]).session = .ready ∧ (readyO [.fail 1, .fail 2]).owns = true ∧
    (readyO [.fail 1, .fail 2]).replies = .fail 1 :: .fail 2 :: [] := by decide
theorem witness_DeinitOfABorrowedSessionReleasesNothing : (readyB []).session = .ready ∧ (readyB []).owns = false := by decide
theorem witness_OwningTeardownAlwaysReleasesBoth : (readyO []).session = .ready ∧ (readyO []).owns = true := by decide
theorem witness_SessionFollowsItsTransitions : (uninit []).session ≠ .configuring ∧ (readyB []).session ≠ .configuring ∧
    closed.session ≠ .configuring := by decide
theorem witness_FailedInitLeavesNothingBehind : (uninit [.fail 1]).session = .uninit ∧ (uninit [.fail 1]).devId = 0 ∧
    (uninit [.fail 1]).busId = 0 ∧ (uninit [.fail 1]).owns = false ∧ isInit (.initOwning 0 0) = true := by decide
theorem witness_OwnershipIsSetOnlyByInit : isInit .deinit = false := by decide
theorem witness_StatusIsLiveAtEveryRequest : ({ readyB [] with busy := true } : State).busy = true := by decide
theorem witness_RomsAndParametersAreConstant : ∃ t, step (sending (bytesOfWord 0x0300000000000000) (readyB [])) = .next t :=
  exists_next (p := fun _ => true) (by decide +kernel)
theorem witness_StepKeepsTheInvariant : Inv (sending (bytesOfWord 0x0300000000000000) (readyB [(0, 1)])) ∧
    ∃ t, step (sending (bytesOfWord 0x0300000000000000) (readyB [(0, 1)])) = .next t :=
  ⟨⟨rfl, rfl, by decide, by decide, by decide, by decide, by decide, by decide, by decide, rfl, rfl⟩,
    exists_next (p := fun _ => true) (by decide +kernel)⟩
theorem witness_BlockResetMakesNoRequest : ({ readyO [] with host := [.blockReset] } : State).host = .blockReset :: [] := by
  decide
theorem witness_ResetAbandonsABusyCommand :
    ∃ u, step { ({ readyO (oks 2) with host := [.sendThenReset (0x03 :: [0, 0, 0, 0, 0, 0, 0]) 1] } : State) with
      host := [.send (0x03 :: [0, 0, 0, 0, 0, 0, 0])] } = .next u :=
  exists_next (p := fun t => t.trace.length == 2) (by decide +kernel)
theorem witness_ResetAbandonsABusyCommand_incomplete :
    ({ readyO [] with host := [.sendThenReset [0x13, 0, 0, 1, 0, 0, 0, 2, 0x41] 0] } : State).busy = false ∧
    fetchCommand [0x13, 0, 0, 1, 0, 0, 0, 2, 0x41] = none ∧ fetchCommand [] = none := by decide +kernel
theorem witness_ResetFramebufferIsUnobservable :
    SameButUnreadFb { State.reset with fb := [(0, 1)] } State.reset ∧ ([(0, 1)] : Memory) ≠ State.reset.fb :=
  ⟨⟨rfl, fun h => by cases h⟩, by decide⟩

end Sys2Proof.Tests
end

section
/-! PROOFS. The invariant between commands (10_state.md R41): each of its parts is kept by every command. -/

namespace Sys2Proof.Machine

open Safety

/-! ## What bus traffic leaves unchanged, as the parts of the invariant need it -/

theorem SameButBus.fb_eq {s t : State} (h : SameButBus s t) : t.fb = s.fb := h.fields.1

theorem SameButBus.constants {s t : State} (h : SameButBus s t) :
    t.glyphRom = s.glyphRom ∧ t.initSeq = s.initSeq ∧ t.params = s.params := by
  obtain ⟨-, hrom, hseq, -, -, -, -, -, -, -, -, -, hparams, -⟩ := h.fields
  exact ⟨hrom, hseq, hparams⟩

theorem SameButBus.session_fields {s t : State} (h : SameButBus s t) :
    t.session = s.session ∧ t.owns = s.owns ∧ t.devId = s.devId ∧ t.busId = s.busId := by
  obtain ⟨-, -, -, hsession, howns, hdev, hbus, -⟩ := h.fields
  exact ⟨hsession, howns, hdev, hbus⟩

/-! ## The read-only memories and the parameters (10_state.md R22, R23, 00_scope.md R9) -/

/-- No command writes the read-only memories or the parameters. -/
theorem after_constants (i : Instr) (s : State) :
    (after i s).glyphRom = s.glyphRom ∧ (after i s).initSeq = s.initSeq ∧ (after i s).params = s.params := by
  have hend := after_commandEnd i s
  generalize after i s = t at hend
  cases hend with
  | refused _ _ _ ht => subst ht; exact ⟨rfl, rfl, rfl⟩
  | fb u _ _ ht hu => subst ht; rw [hu]; exact ⟨rfl, rfl, rfl⟩
  | upd u _ _ _ _ _ _ _ _ _ hsame _ _ _ _ _ _ ht => subst ht; exact hsame.constants
  | deinitOwning w _ _ _ _ _ _ hsame _ _ ht => subst ht; exact hsame.constants
  | deinitBorrowed _ _ _ ht => subst ht; exact ⟨rfl, rfl, rfl⟩
  | borrow _ _ _ _ hb =>
    cases hb with
    | ok _ u hsame _ _ _ ht => subst ht; exact hsame.constants
    | fail _ _ _ _ u hsame _ _ _ _ _ ht => subst ht; exact hsame.constants
  | own _ _ _ _ ho =>
    cases ho with
    | noBus _ u hsame _ ht => subst ht; exact hsame.constants
    | noDev _ _ _ u hsame _ ht => subst ht; exact hsame.constants
    | ok _ _ _ u _ _ hsame _ _ _ ht => subst ht; exact hsame.constants
    | undone _ _ _ _ _ _ _ _ u _ _ hsame _ _ _ _ _ ht => subst ht; exact hsame.constants

/-! ## The framebuffer's canonical form (20_memory.md R55) -/

theorem SameButBus.wf {s t : State} (h : SameButBus s t) (hw : s.fb.wf = true) : t.fb.wf = true := by
  rw [h.fb_eq]; exact hw

/-- Every command keeps the canonical form. -/
theorem wf_after (i : Instr) {s : State} (hw : s.fb.wf = true) : (after i s).fb.wf = true := by
  by_cases hfb : isFramebuffer i = true
  · exact wf_after_framebuffer hfb hw
  have hend := after_commandEnd i s
  generalize after i s = t at hend
  cases hend with
  | refused _ _ _ ht => subst ht; exact hw
  | fb _ _ hi => exact absurd hi hfb
  | upd u _ _ _ _ _ _ _ _ _ hsame _ _ _ _ _ _ ht => subst ht; exact hsame.wf hw
  | deinitOwning w _ _ _ _ _ _ hsame _ _ ht => subst ht; exact hsame.wf hw
  | deinitBorrowed _ _ _ ht => subst ht; exact hw
  | borrow _ _ _ _ hb =>
    cases hb with
    | ok _ u hsame _ _ _ ht => subst ht; exact hsame.wf wf_zeroMemory
    | fail _ _ _ _ u hsame _ _ _ _ _ ht => subst ht; exact hsame.wf wf_zeroMemory
  | own _ _ _ _ ho =>
    cases ho with
    | noBus _ u hsame _ ht => subst ht; exact hsame.wf hw
    | noDev _ _ _ u hsame _ ht => subst ht; exact hsame.wf hw
    | ok _ _ _ u _ _ hsame _ _ _ ht => subst ht; exact hsame.wf wf_zeroMemory
    | undone _ _ _ _ _ _ _ _ u _ _ hsame _ _ _ _ _ ht => subst ht; exact hsame.wf wf_zeroMemory

/-! ## Handles and ownership fit the session (10_state.md R41) -/

/-- The five implications of R41, read off the session; CONFIGURING is no state between commands. -/
def SessionFits (s : State) : Prop :=
  match s.session with
  | .uninit => s.devId = 0 ∧ s.busId = 0 ∧ s.owns = false
  | .configuring => False
  | .ready => s.devId ≠ 0 ∧ (s.owns = true → s.busId ≠ 0)
  | .closed => s.devId = 0 ∧ s.busId = 0

theorem sessionFits_of_uninit {s : State} (h : s.session = .uninit) :
    SessionFits s ↔ s.devId = 0 ∧ s.busId = 0 ∧ s.owns = false := by simp [SessionFits, h]

theorem sessionFits_of_ready {s : State} (h : s.session = .ready) :
    SessionFits s ↔ s.devId ≠ 0 ∧ (s.owns = true → s.busId ≠ 0) := by simp [SessionFits, h]

theorem sessionFits_of_closed {s : State} (h : s.session = .closed) :
    SessionFits s ↔ s.devId = 0 ∧ s.busId = 0 := by simp [SessionFits, h]

theorem SessionFits.not_configuring {s : State} (h : SessionFits s) : s.session ≠ .configuring := by
  intro hc; simp [SessionFits, hc] at h

/-- Where an INIT_* is let through, the session holds nothing. -/
theorem SessionFits.clear_of_init {s : State} (h : SessionFits s)
    (hs : s.session = .uninit ∨ s.session = .configuring) : s.devId = 0 ∧ s.busId = 0 ∧ s.owns = false :=
  (sessionFits_of_uninit (hs.resolve_right h.not_configuring)).1 h

/-- `SessionFits` reads four fields. -/
theorem SessionFits.congr {s t : State} (h : SessionFits s)
    (heq : t.session = s.session ∧ t.owns = s.owns ∧ t.devId = s.devId ∧ t.busId = s.busId) : SessionFits t := by
  obtain ⟨hsession, howns, hdev, hbus⟩ := heq
  simpa only [SessionFits, hsession, howns, hdev, hbus] using h

/-- INIT_BORROWING leaves a READY session with the given handle, or an empty UNINIT session. -/
theorem InitBorrowingEnd.sessionFits {handle : Word32} {s t : State} (h : InitBorrowingEnd handle s t)
    (h0 : handle ≠ 0) : SessionFits t := by
  cases h with
  | ok _ u hsame _ _ _ ht =>
    obtain ⟨-, howns, hdev, -⟩ := hsame.session_fields
    subst ht
    exact (sessionFits_of_ready rfl).2 ⟨hdev ▸ h0, fun ho => Bool.noConfusion (ho.symm.trans howns)⟩
  | fail _ _ _ _ u hsame _ _ _ _ _ ht =>
    obtain ⟨-, howns, -, hbus⟩ := hsame.session_fields
    subst ht
    exact (sessionFits_of_uninit rfl).2 ⟨rfl, hbus, howns⟩

/-- INIT_OWNING leaves a READY session with both handles, or an empty UNINIT session. -/
theorem InitOwningEnd.sessionFits {scl sda : Byte} {s t : State} (h : InitOwningEnd scl sda s t)
    (hclear : s.devId = 0 ∧ s.busId = 0 ∧ s.owns = false) : SessionFits t := by
  obtain ⟨hdev0, hbus0, howns0⟩ := hclear
  cases h with
  | noBus _ u hsame _ ht =>
    obtain ⟨-, howns, hdev, hbus⟩ := hsame.session_fields
    subst ht
    exact (sessionFits_of_uninit rfl).2 ⟨hdev.trans hdev0, hbus.trans hbus0, howns.trans howns0⟩
  | noDev _ _ _ u hsame _ ht =>
    obtain ⟨-, howns, hdev, -⟩ := hsame.session_fields
    subst ht
    exact (sessionFits_of_uninit rfl).2 ⟨hdev.trans hdev0, rfl, howns.trans howns0⟩
  | ok _ _ _ u hbusNe hdevNe hsame _ _ _ ht =>
    obtain ⟨-, -, hdev, hbus⟩ := hsame.session_fields
    subst ht
    exact (sessionFits_of_ready rfl).2 ⟨hdev ▸ hdevNe, fun _ => hbus ▸ hbusNe⟩
  | undone _ _ _ _ _ _ _ _ u _ _ _ _ _ _ _ _ ht =>
    subst ht
    exact (sessionFits_of_uninit rfl).2 ⟨rfl, rfl, rfl⟩

/-- Every command leaves handles and ownership that fit the session it leaves. -/
theorem sessionFits_after (i : Instr) {s : State} (h : SessionFits s) : SessionFits (after i s) := by
  have hend := after_commandEnd i s
  generalize after i s = t at hend
  cases hend with
  | refused _ _ _ ht => subst ht; exact h
  | fb u _ _ ht hu => subst ht; rw [hu]; exact h
  | upd u _ _ _ _ _ _ _ _ _ hsame _ _ _ _ _ _ ht =>
    subst ht; exact h.congr hsame.session_fields
  | deinitOwning _ _ _ _ _ _ _ _ _ _ ht => subst ht; exact (sessionFits_of_closed rfl).2 ⟨rfl, rfl⟩
  | deinitBorrowed _ _ _ ht => subst ht; exact (sessionFits_of_closed rfl).2 ⟨rfl, rfl⟩
  | borrow _ _ _ h0 hb => exact hb.sessionFits h0
  | own _ _ hs _ ho => exact ho.sessionFits (h.clear_of_init hs)

/-! ## The invariant from its parts -/

theorem sessionFits_of_inv {s : State} (h : Inv s) : SessionFits s := by
  cases hs : s.session with
  | uninit => exact (sessionFits_of_uninit hs).2 (h.uninitClear hs)
  | configuring => exact absurd hs h.notConfiguring
  | ready => exact (sessionFits_of_ready hs).2 ⟨h.readyDevice hs, h.readyOwnsBus hs⟩
  | closed => exact (sessionFits_of_closed hs).2 (h.closedClear hs)

/-- From a state with the invariant, an idle state with its constants, a session that fits and a canonical
framebuffer has the invariant. -/
theorem inv_of_parts {s t : State} (h : Inv s) (idle : t.busy = false ∧ t.seq = 0) (session : SessionFits t)
    (memory : t.fb.wf = true)
    (constants : t.glyphRom = s.glyphRom ∧ t.initSeq = s.initSeq ∧ t.params = s.params) : Inv t := by
  obtain ⟨hrom, hseq, hparams⟩ := constants
  exact {
    idle := idle.1
    seqZero := idle.2
    notConfiguring := session.not_configuring
    readyDevice := fun hs => ((sessionFits_of_ready hs).1 session).1
    readyOwnsBus := fun hs => ((sessionFits_of_ready hs).1 session).2
    uninitClear := fun hs => (sessionFits_of_uninit hs).1 session
    closedClear := fun hs => (sessionFits_of_closed hs).1 session
    memoryForm := memory
    textMaxRange := hparams ▸ h.textMaxRange
    glyphEntryA := hrom ▸ h.glyphEntryA
    initSeqTable := hseq ▸ h.initSeqTable }

/-! ## The moves of a step -/

/-- The invariant reads neither the inputs nor the observation. -/
theorem inv_unread {s : State} (h : Inv s) (ms : List HostMove) (rs : List Config.Reply) (tr : List Transaction)
    (ds : List Diag) : Inv { s with host := ms, replies := rs, trace := tr, diag := ds } :=
  inv_of_parts h ⟨h.idle, h.seqZero⟩ ((sessionFits_of_inv h).congr ⟨rfl, rfl, rfl, rfl⟩) h.memoryForm
    ⟨rfl, rfl, rfl⟩

/-- A command that runs, or completes as an illegal word, keeps the invariant. -/
theorem inv_runCommand {s t : State} {bs : List Byte} {ms : List HostMove} (h : Inv s)
    (hrun : runCommand bs ms s = .next t) : Inv t := by
  obtain ⟨-, c, -, hend⟩ := runCommand_cases hrun
  have hfits : SessionFits (accept c ms s) := (sessionFits_of_inv h).congr ⟨rfl, rfl, rfl, rfl⟩
  rcases hend with ⟨i, rfl⟩ | rfl
  · exact inv_of_parts h (after_idle i _) (sessionFits_after i hfits) (wf_after i h.memoryForm) (after_constants i _)
  · exact inv_of_parts h ⟨rfl, rfl⟩ (hfits.congr ⟨rfl, rfl, rfl, rfl⟩) h.memoryForm ⟨rfl, rfl, rfl⟩

/-- Block reset establishes every part anew but the constants, which it keeps. -/
theorem inv_blockReset {s : State} (h : Inv s) : Inv (blockReset s) :=
  inv_of_parts h ⟨blockReset_busy s, blockReset_seq s⟩
    ((sessionFits_of_uninit (blockReset_session s)).2 ⟨blockReset_devId s, blockReset_busId s, blockReset_owns s⟩)
    ((blockReset_fb s).symm ▸ wf_freeFramebuffer s.draws)
    ⟨blockReset_glyphRom s, blockReset_initSeq s, blockReset_params s⟩

/-- An abandoned command ends in a block reset with the answers and the observation cut back. -/
theorem inv_abandon {u : State} (h : Inv u) (k : Nat) (s : State) : Inv (abandon k s u) :=
  inv_unread (inv_blockReset h) _ _ _ _

/-- Settles O55: each move of a step keeps the parts of the invariant. -/
theorem stepKeepsTheInvariant : Obligations.StepKeepsTheInvariant := by
  intro s t h hstep
  rcases step_cases hstep with rfl | ⟨ms, rfl⟩ | ⟨bs, ms, hrun⟩ | ⟨bs, ms, k, u, hrun, rfl⟩ | ⟨ms, rfl⟩
  · exact h
  · exact inv_unread h ms _ _ _
  · exact inv_runCommand h hrun
  · exact inv_abandon (inv_runCommand h hrun) k s
  · exact inv_blockReset (inv_unread h ms _ _ _)

/-! ## The state after reset (10_state.md R42) -/

/-- Entry 33 of the glyph ROM is the one the spec gives, whatever the free entries hold (10_state.md R22). -/
theorem glyphRom_get_33 : Config.glyphRom.get 33 = Config.glyphA := rfl

/-- `STATUS` reads 0 after reset (10_state.md R42). -/
theorem statusWord_reset : statusWord State.reset = 0 := by decide

/-- Settles O57: the fields by the definition of the reset state, `STATUS` and glyph entry 33 by their lemmas. -/
theorem resetHasTheValuesOfTheSpec : Obligations.ResetHasTheValuesOfTheSpec :=
  ⟨rfl, rfl, rfl, rfl, rfl, rfl, rfl, rfl, rfl, rfl, rfl, rfl, rfl, statusWord_reset, rfl, rfl, rfl, glyphRom_get_33⟩

end Sys2Proof.Machine
end

section
/-! PROOFS. The framebuffer outside READY is not observable (10_state.md R42): every operation up to the step leads
states that differ only in it to states that differ only in it. -/

namespace Sys2Proof.Machine

open Safety

/-! ## The relation of states -/

theorem sameButUnreadFb_refl (s : State) : SameButUnreadFb s s := ⟨rfl, fun _ => rfl⟩

theorem sameButUnreadFb_of_eq {a b : State} (h : a = b) : SameButUnreadFb a b := h ▸ sameButUnreadFb_refl a

/-- Outside READY the framebuffer may be replaced by any other. -/
theorem sameButUnreadFb_of_not_ready {s : State} (h : s.session ≠ .ready) (m : Memory) :
    SameButUnreadFb { s with fb := m } s := ⟨rfl, fun hr => absurd hr h⟩

/-- The one way in which related states differ: their session is not READY and the framebuffer was replaced. -/
theorem eq_or_replaced_of_sameButUnreadFb {a b : State} (h : SameButUnreadFb a b) :
    a = b ∨ b.session ≠ .ready ∧ ∃ m, a = { b with fb := m } := by
  obtain ⟨heq, hread⟩ := h
  by_cases hr : b.session = .ready
  · rw [hread hr] at heq
    exact .inl heq
  · exact .inr ⟨hr, a.fb, heq⟩

theorem outcomesAgree_refl {R : State → State → Prop} (hR : ∀ s, R s s) (o : Host.Outcome State Fault Refusal) :
    outcomesAgree R o o := by
  cases o with
  | next s => exact hR s
  | fault f => rfl
  | refused r => rfl

/-! ## Operations that do not read the framebuffer -/

theorem requestHandle_replaceFb (r : Request) (s : State) (m : Memory) :
    requestHandle r { s with fb := m } = ((requestHandle r s).1, { (requestHandle r s).2 with fb := m }) := rfl

/-- Configuring the panel zeroes the framebuffer before anything reads it (43_session.md R211, R213). -/
theorem configurePanel_replaceFb (undo : State → State) (s : State) (m : Memory) :
    configurePanel undo { s with fb := m } = configurePanel undo s := rfl

/-- Block reset draws a framebuffer of its own (93_implementation_defined.md U1). -/
theorem blockReset_replaceFb (s : State) (m : Memory) : blockReset { s with fb := m } = blockReset s := rfl

/-- An abandoned command ends alike whatever the framebuffer was before it and after it. -/
theorem abandon_replaceFb (k : Nat) (s t : State) (m n : Memory) :
    abandon k { s with fb := m } { t with fb := n } = abandon k s t := rfl

/-! ## Commands -/

theorem attachDevice_unreadFb (s : State) (m : Memory) :
    SameButUnreadFb (attachDevice { s with fb := m }) (attachDevice s) := by
  unfold attachDevice
  rw [requestHandle_replaceFb]
  rcases requestHandle (.devAdd s.busId Config.PANEL_ADDR s.params.busClkHz) s with ⟨_ | dev, t⟩
  · exact ⟨rfl, fun hr => nomatch hr⟩
  · exact sameButUnreadFb_of_eq (configurePanel_replaceFb undoOwning { t with devId := dev, owns := true } m)

theorem initOwning_unreadFb (scl sda : Byte) (s : State) (m : Memory) :
    SameButUnreadFb (initOwning scl sda { s with fb := m }) (initOwning scl sda s) := by
  have hreq := requestHandle_replaceFb (.busCreate scl sda) { s with session := .configuring } m
  unfold initOwning
  rw [hreq]
  rcases requestHandle (.busCreate scl sda) { s with session := .configuring } with ⟨_ | bus, t⟩
  · exact ⟨rfl, fun hr => nomatch hr⟩
  · exact attachDevice_unreadFb { t with busId := bus } m

theorem initBorrowing_unreadFb (h : Word32) {s : State} (hs : s.session ≠ .ready) (m : Memory) :
    SameButUnreadFb (initBorrowing h { s with fb := m }) (initBorrowing h s) := by
  unfold initBorrowing
  split
  · exact sameButUnreadFb_of_not_ready (s := finish notInitialized s) hs m
  · exact sameButUnreadFb_of_eq (configurePanel_replaceFb undoBorrowing
      { s with session := .configuring, devId := h, busId := 0, owns := false } m)

theorem whenInitAllowed_of_open {f : State → State} {s : State} (h : s.session = .uninit ∨ s.session = .configuring) :
    whenInitAllowed f s = f s := by
  rcases h with h | h <;> simp [whenInitAllowed, h]

/-- The session check of INIT_* reads no framebuffer, so it passes the relation on. -/
theorem whenInitAllowed_unreadFb {f : State → State} {s : State} (hs : s.session ≠ .ready) (m : Memory)
    (hf : SameButUnreadFb (f { s with fb := m }) (f s)) :
    SameButUnreadFb (whenInitAllowed f { s with fb := m }) (whenInitAllowed f s) := by
  rcases whenInitAllowed_cases f s with ⟨hclosed, e⟩ | ⟨hready, -⟩ | ⟨hopen, e⟩
  · rw [e, whenInitAllowed_of_closed (s := { s with fb := m }) hclosed]
    exact sameButUnreadFb_of_not_ready (s := finish notInitialized s) hs m
  · exact absurd hready hs
  · rw [e, whenInitAllowed_of_open (s := { s with fb := m }) hopen]
    exact hf

/-- No command reads the framebuffer outside READY (41_framebuffer.md R121). -/
theorem after_unreadFb (i : Instr) {s : State} (hs : s.session ≠ .ready) (m : Memory) :
    SameButUnreadFb (after i { s with fb := m }) (after i s) := by
  cases hi : isInit i with
  | false =>
    rw [after_not_ready (s := { s with fb := m }) hi hs, after_not_ready hi hs]
    exact sameButUnreadFb_of_not_ready (s := finish notInitialized s) hs m
  | true =>
    cases i with
    | initOwning scl sda => exact whenInitAllowed_unreadFb hs m (initOwning_unreadFb scl sda s m)
    | initBorrowing h => exact whenInitAllowed_unreadFb hs m (initBorrowing_unreadFb h hs m)
    | _ => cases hi

/-! ## The command port and the step -/

theorem runCommand_unreadFb (bs : List Byte) (ms : List HostMove) {s : State} (hs : s.session ≠ .ready) (m : Memory) :
    outcomesAgree SameButUnreadFb (runCommand bs ms { s with fb := m }) (runCommand bs ms s) := by
  unfold runCommand
  split
  · rfl
  · cases fetchCommand bs with
    | none => rfl
    | some c =>
      dsimp only
      cases decodeWord c.word c.payload with
      | ok i =>
        simp only [exec_eq_after]
        exact after_unreadFb i (s := accept c ms s) hs m
      | error _ => exact sameButUnreadFb_of_not_ready (s := illegalWord (accept c ms s)) hs m

/-- Block reset in the middle of a command leads both states to the same one. -/
theorem runThenReset_unreadFb (bs : List Byte) (k : Nat) (ms : List HostMove) {s : State} (hs : s.session ≠ .ready)
    (m : Memory) :
    outcomesAgree SameButUnreadFb (runThenReset bs k ms { s with fb := m }) (runThenReset bs k ms s) := by
  have hrun := runCommand_unreadFb bs ms hs m
  unfold runThenReset
  generalize runCommand bs ms { s with fb := m } = oa at hrun ⊢
  generalize runCommand bs ms s = ob at hrun ⊢
  cases oa with
  | next t =>
    cases ob with
    | next u =>
      obtain ⟨heq, -⟩ : SameButUnreadFb t u := hrun
      rw [heq]
      exact sameButUnreadFb_of_eq (abandon_replaceFb k s u m t.fb)
    | _ => cases hrun
  | fault f =>
    cases ob with
    | fault g =>
      obtain rfl : f = g := hrun
      cases f with
      | commandWhileBusy => rfl
      | commandIncomplete => exact sameButUnreadFb_of_eq (blockReset_replaceFb { s with host := ms } m)
    | _ => cases hrun
  | refused p =>
    cases ob with
    | refused q => exact hrun
    | _ => cases hrun

theorem step_unreadFb {s : State} (hs : s.session ≠ .ready) (m : Memory) :
    outcomesAgree SameButUnreadFb (step { s with fb := m }) (step s) := by
  unfold step
  dsimp only
  split
  · exact sameButUnreadFb_of_not_ready hs m
  · next ms _ => exact sameButUnreadFb_of_not_ready (s := { s with host := ms }) hs m
  · exact runCommand_unreadFb _ _ hs m
  · exact runThenReset_unreadFb _ _ _ hs m
  · next ms _ => exact sameButUnreadFb_of_eq (blockReset_replaceFb { s with host := ms } m)
  · next ms _ => exact sameButUnreadFb_of_not_ready (s := { s with host := ms }) hs m
  · next ms _ => exact sameButUnreadFb_of_not_ready (s := { s with host := ms }) hs m

/-- Settles O60: equal states step alike, and so do states that differ in the framebuffer outside READY. -/
theorem resetFramebufferIsUnobservable : Obligations.ResetFramebufferIsUnobservable := by
  intro a b h
  rcases eq_or_replaced_of_sameButUnreadFb h with rfl | ⟨hs, m, rfl⟩
  · exact outcomesAgree_refl sameButUnreadFb_refl _
  · exact step_unreadFb hs m

end Sys2Proof.Machine
end

section
/-! PROOFS. The registers between and during commands (10_state.md): the layout of STATUS, what a command takes from
the port, how it ends, and which command may write which register. -/

namespace Sys2Proof.Machine

open Safety

/-! ## The layout of STATUS (10_state.md R28): a field stands above the fields that are skipped -/

theorem statusWord_kind (s : State) : (statusWord s).extractLsb' 0 3 = s.kind.code :=
  BitVec.extractLsb'_append_eq_right

theorem statusWord_busy (s : State) : (statusWord s).getLsbD 3 = s.busy := by
  simp only [statusWord, BitVec.getLsbD_append]
  simp

theorem statusWord_session (s : State) : (statusWord s).extractLsb' 4 2 = s.session.code := by
  unfold statusWord
  iterate 2 rw [BitVec.extractLsb'_append_eq_of_le (by decide)]
  exact BitVec.extractLsb'_append_eq_right

theorem statusWord_owns (s : State) : (statusWord s).getLsbD 6 = s.owns := by
  simp only [statusWord, BitVec.getLsbD_append]
  simp

theorem statusWord_result (s : State) : (statusWord s).getLsbD 7 = s.result := by
  simp only [statusWord, BitVec.getLsbD_append]
  simp

theorem statusWord_errByte (s : State) : (statusWord s).extractLsb' 8 8 = s.errByte := by
  unfold statusWord
  iterate 5 rw [BitVec.extractLsb'_append_eq_of_le (by decide)]
  exact BitVec.extractLsb'_append_eq_right

theorem statusWord_errStep (s : State) : (statusWord s).extractLsb' 16 5 = s.errStep := by
  unfold statusWord
  iterate 6 rw [BitVec.extractLsb'_append_eq_of_le (by decide)]
  exact BitVec.extractLsb'_append_eq_right

theorem statusWord_errSrc (s : State) : (statusWord s).extractLsb' 21 3 = s.errSrc.code := by
  unfold statusWord
  iterate 7 rw [BitVec.extractLsb'_append_eq_of_le (by decide)]
  exact BitVec.extractLsb'_append_eq_right

theorem statusWord_upper (s : State) : (statusWord s).extractLsb' 24 8 = 0 := by
  unfold statusWord
  iterate 8 rw [BitVec.extractLsb'_append_eq_of_le (by decide)]
  exact BitVec.extractLsb'_eq_self

/-- Settles O53: field by field, and the three tables by evaluation. -/
theorem statusHasItsLayout : Obligations.StatusHasItsLayout :=
  ⟨fun s => ⟨statusWord_kind s, statusWord_busy s, statusWord_session s, statusWord_owns s, statusWord_result s,
    statusWord_errByte s, statusWord_errStep s, statusWord_errSrc s, statusWord_upper s⟩, rfl, rfl, rfl⟩

/-! ## Single moves of the host -/

/-- Settles O9: the moves without effect, by the definition of a step. -/
theorem registerWritesHaveNoEffect : Obligations.RegisterWritesHaveNoEffect := by
  intro s ms v
  refine ⟨fun h => ?_, fun h => ?_, fun h => ?_⟩ <;> simp only [step, h]

/-- A command on the port takes at least one byte. -/
theorem ne_nil_of_fetchCommand {bs : List Byte} {c : Fetched} (h : fetchCommand bs = some c) : bs ≠ [] := by
  rintro rfl
  cases h

/-- Settles O6: the port gives the command, and it runs. -/
theorem stepRunsTheDecodedInstruction : Obligations.StepRunsTheDecodedInstruction := by
  intro s bs ms c i hidle hhost hfetch hdecode
  rw [step_send (ne_nil_of_fetchCommand hfetch) hhost, runCommand_of_fetch ms hidle hfetch, hdecode, exec_eq_after]
  rfl

/-! ## What every command leaves as it was -/

theorem SameButBus.kept {s t : State} (h : SameButBus s t) {p : Prop} :
    t.host = s.host ∧ t.cmd = s.cmd ∧ (p → t.result = s.result) := by
  obtain ⟨-, -, -, -, -, -, -, hcmd, -, -, hresult, -, -, hhost, -⟩ := h.fields
  exact ⟨hhost, hcmd, fun _ => hresult⟩

/-- No command takes more from the port than `accept` took, or writes `CMD` (10_state.md R39), and none but GET_PIXEL
writes RESULT (R33). -/
theorem CommandEnd.kept {i : Instr} {s t : State} (h : CommandEnd i s t) :
    t.host = s.host ∧ t.cmd = s.cmd ∧ ((∀ x y, i ≠ .getPixel x y) → t.result = s.result) := by
  cases h with
  | refused _ _ _ ht => subst ht; exact ⟨rfl, rfl, fun _ => rfl⟩
  | fb u _ _ ht hu hresult =>
    subst ht
    refine ⟨by rw [hu]; rfl, by rw [hu]; rfl, fun hi => ?_⟩
    cases i with
    | getPixel x y => exact absurd rfl (hi x y)
    | _ => exact hresult
  | upd u _ _ _ _ _ _ _ _ _ hsame _ _ _ _ _ _ ht => subst ht; exact hsame.kept
  | deinitOwning w _ _ _ _ _ _ hsame _ _ ht => subst ht; exact hsame.kept
  | deinitBorrowed _ _ _ ht => subst ht; exact ⟨rfl, rfl, fun _ => rfl⟩
  | borrow _ _ _ _ hb =>
    cases hb with
    | ok _ u hsame _ _ _ ht => subst ht; exact hsame.kept
    | fail _ _ _ _ u hsame _ _ _ _ _ ht => subst ht; exact hsame.kept
  | own _ _ _ _ ho =>
    cases ho with
    | noBus _ u hsame _ ht => subst ht; exact hsame.kept
    | noDev _ _ _ u hsame _ ht => subst ht; exact hsame.kept
    | ok _ _ _ u _ _ hsame _ _ _ ht => subst ht; exact hsame.kept
    | undone _ _ _ _ _ _ _ _ u _ _ hsame _ _ _ _ _ ht => subst ht; exact hsame.kept

/-- Settles O7: the port gives the word with its payload, and neither the command nor an illegal word takes more. -/
theorem everyCommandTakesItsPayloadAndCompletes : Obligations.EveryCommandTakesItsPayloadAndCompletes := by
  intro s w p rest ms hidle hhost hp
  have hfetch := fetchCommand_append w p rest hp
  rw [step_send (ne_nil_of_fetchCommand hfetch) hhost, runCommand_of_fetch ms hidle hfetch]
  refine ⟨_, rfl, ?_⟩
  cases decodeWord w p with
  | ok i =>
    obtain ⟨hhost, hcmd, -⟩ := (after_commandEnd i (accept ⟨w, p, rest⟩ ms s)).kept
    exact ⟨hhost, hcmd, (after_idle i _).1⟩
  | error _ => exact ⟨rfl, rfl, rfl⟩

/-! ## The read-only memories and the parameters (10_state.md R22, R23) -/

theorem runCommand_constants {s t : State} {bs : List Byte} {ms : List HostMove} (h : runCommand bs ms s = .next t) :
    t.glyphRom = s.glyphRom ∧ t.initSeq = s.initSeq ∧ t.params = s.params := by
  obtain ⟨-, c, -, ⟨i, rfl⟩ | rfl⟩ := runCommand_cases h
  · exact after_constants i (accept c ms s)
  · exact ⟨rfl, rfl, rfl⟩

theorem blockReset_constants (s : State) :
    (blockReset s).glyphRom = s.glyphRom ∧ (blockReset s).initSeq = s.initSeq ∧ (blockReset s).params = s.params :=
  ⟨blockReset_glyphRom s, blockReset_initSeq s, blockReset_params s⟩

theorem abandon_constants (k : Nat) (s u : State) :
    (abandon k s u).glyphRom = u.glyphRom ∧ (abandon k s u).initSeq = u.initSeq ∧
      (abandon k s u).params = u.params := by
  simp only [abandon, blockReset_glyphRom, blockReset_initSeq, blockReset_params, and_self]

/-- Settles O54: each move of a step keeps them. -/
theorem romsAndParametersAreConstant : Obligations.RomsAndParametersAreConstant := by
  intro s t hstep
  rcases step_cases hstep with rfl | ⟨ms, rfl⟩ | ⟨bs, ms, hrun⟩ | ⟨bs, ms, k, u, hrun, rfl⟩ | ⟨ms, rfl⟩
  · exact ⟨rfl, rfl, rfl⟩
  · exact ⟨rfl, rfl, rfl⟩
  · exact runCommand_constants hrun
  · obtain ⟨hrom, hseq, hparams⟩ := runCommand_constants hrun
    obtain ⟨hrom', hseq', hparams'⟩ := abandon_constants k s u
    exact ⟨hrom'.trans hrom, hseq'.trans hseq, hparams'.trans hparams⟩
  · exact blockReset_constants { s with host := ms }

/-- Settles O56: the values of the reset state, and glyph entry 33 by its lemma. -/
theorem resetMeetsTheInvariant : Obligations.ResetMeetsTheInvariant where
  idle := rfl
  seqZero := rfl
  notConfiguring := nofun
  readyDevice := nofun
  readyOwnsBus := nofun
  uninitClear := fun _ => ⟨rfl, rfl, rfl⟩
  closedClear := nofun
  memoryForm := wf_zeroMemory
  textMaxRange := ⟨Nat.succ_pos _, Config.freeTextMaxPred.isLt⟩
  glyphEntryA := glyphRom_get_33
  initSeqTable := rfl

end Sys2Proof.Machine
end

section
/-! PROOFS. How commands end (60_exceptions.md R241, R246), and what the registers of 10_state.md show of them: RESULT,
STATUS at every request, and the ghost PANEL_WIN_KNOWN. Each claim is read off the ways a command can end. -/

namespace Sys2Proof.Machine

open Safety

/-! ## Completion codes and their detail (60_exceptions.md R241, R246) -/

theorem ok_mem_possibleKinds (i : Instr) : Kind.ok ∈ possibleKinds i := by
  cases i <;> exact List.mem_cons_self

/-- Every command ends with a code of its row. -/
theorem CommandEnd.kind_mem {i : Instr} {s t : State} (h : CommandEnd i s t) : t.kind ∈ possibleKinds i := by
  cases h with
  | refused _ _ hk ht => subst ht; exact hk
  | fb _ _ _ ht => subst ht; exact ok_mem_possibleKinds i
  | upd _ _ _ _ _ _ _ _ _ hi _ _ _ _ _ _ hend ht =>
    subst hi ht
    rcases hend with ⟨rfl, -⟩ | ⟨rfl, -⟩ | ⟨rfl, -⟩ <;> simp [possibleKinds, ended]
  | deinitOwning _ _ _ _ _ hi _ _ _ hc ht =>
    subst hi ht
    rcases hc with rfl | ⟨e, rfl | rfl⟩ <;> simp [possibleKinds, completionOk, resourceFailed]
  | deinitBorrowed _ _ _ ht => subst ht; exact ok_mem_possibleKinds i
  | borrow _ _ hi _ hb =>
    subst hi
    cases hb with
    | ok _ _ _ _ _ _ ht => subst ht; exact ok_mem_possibleKinds _
    | fail _ _ _ _ _ _ _ _ _ _ _ ht => subst ht; simp [possibleKinds, endedCommandFrame, ended]
  | own _ _ _ hi ho =>
    subst hi
    cases ho with
    | noBus _ _ _ _ ht => subst ht; simp [possibleKinds, endedResource, ended]
    | noDev _ _ _ _ _ _ ht => subst ht; simp [possibleKinds, endedResource, ended]
    | ok _ _ _ _ _ _ _ _ _ _ ht => subst ht; exact ok_mem_possibleKinds _
    | undone _ _ _ _ _ _ _ _ _ _ _ _ _ _ _ _ _ ht => subst ht; simp [possibleKinds, endedCommandFrame, ended]

/-- A completion with all detail fields 0 fits the codes that have no detail. -/
theorem detailFits_endedPlain {k : Kind}
    (hk : k = .ok ∨ k = .notInitialized ∨ k = .invalidArgument ∨ k = .illegalCommand) (s : State) :
    detailFits (endedPlain k s) := by
  rcases hk with rfl | rfl | rfl | rfl <;> exact And.intro rfl ⟨rfl, rfl, rfl⟩

theorem detailFits_endedCommandFrame (b : Byte) (st : BitVec 5) (e : Word32) (s : State) :
    detailFits (endedCommandFrame b st e s) := True.intro

/-- Every command ends with the detail fields of its code. -/
theorem CommandEnd.detailFits {i : Instr} {s t : State} (h : CommandEnd i s t) : detailFits t := by
  cases h with
  | refused _ hk _ ht => subst ht; exact detailFits_endedPlain (.inr hk) s
  | fb u _ _ ht => subst ht; exact detailFits_endedPlain (.inl rfl) u
  | upd _ _ _ _ _ _ _ _ _ _ _ _ _ _ _ _ hend ht =>
    subst ht
    rcases hend with ⟨rfl, rfl, rfl, rfl, rfl⟩ | ⟨rfl, rfl, rfl, rfl⟩ | ⟨rfl, rfl | ⟨rfl, rfl⟩⟩
    · exact detailFits_endedPlain (.inl rfl) _
    · exact And.intro rfl ⟨rfl, rfl⟩
    · exact detailFits_endedCommandFrame _ _ _ _
    · exact Eq.refl (0 : Byte)
  | deinitOwning w _ _ _ _ _ _ _ _ hc ht =>
    subst ht
    rcases hc with rfl | ⟨e, rfl | rfl⟩
    · exact detailFits_endedPlain (.inl rfl) (closeSession w)
    · exact And.intro rfl rfl
    · exact And.intro rfl rfl
  | deinitBorrowed _ _ _ ht => subst ht; exact detailFits_endedPlain (.inl rfl) (closeSession s)
  | borrow _ _ _ _ hb =>
    cases hb with
    | ok _ _ _ _ _ _ ht => subst ht; exact detailFits_endedPlain (.inl rfl) _
    | fail _ _ _ _ _ _ _ _ _ _ _ ht => subst ht; exact detailFits_endedCommandFrame _ _ _ _
  | own _ _ _ _ ho =>
    cases ho with
    | noBus _ _ _ _ ht => subst ht; exact And.intro rfl rfl
    | noDev _ _ _ _ _ _ ht => subst ht; exact And.intro rfl rfl
    | ok _ _ _ _ _ _ _ _ _ _ ht => subst ht; exact detailFits_endedPlain (.inl rfl) _
    | undone _ _ _ _ _ _ _ _ _ _ _ _ _ _ _ _ _ ht => subst ht; exact detailFits_endedCommandFrame _ _ _ _

/-- Settles O44: code, detail and idleness of the state a command leaves. -/
theorem everyCommandEndsWithAnAllowedCode : Obligations.EveryCommandEndsWithAnAllowedCode := fun s i =>
  ⟨after i s, exec_eq_after i s, (after_commandEnd i s).kind_mem, (after_commandEnd i s).detailFits, after_idle i s⟩

/-! ## RESULT (10_state.md R33) -/

/-- GET_PIXEL writes the pixel read to RESULT where it completes OK, and does not write it where it is refused. -/
theorem CommandEnd.result_of_getPixel {x y : Byte} {s t : State} (h : CommandEnd (.getPixel x y) s t) :
    t.result =
      if t.kind = .ok then (memRead s.fb (pixelIndex x.toNat y.toNat)).getLsbD (pixelBit y.toNat) else s.result := by
  cases h with
  | refused k hk _ ht =>
    have hne : k ≠ .ok := by rcases hk with rfl | rfl | rfl <;> decide
    subst ht
    exact (if_neg hne).symm
  | fb u _ _ ht _ hresult => subst ht; exact hresult.trans (if_pos rfl).symm
  | upd _ _ _ _ _ _ _ _ _ hi => cases hi
  | deinitOwning _ _ _ _ _ hi => cases hi
  | deinitBorrowed _ hi => cases hi
  | borrow _ _ hi => cases hi
  | own _ _ _ hi => cases hi

/-- Settles O47: GET_PIXEL apart from the other commands. -/
theorem resultIsWrittenOnlyByGetPixel : Obligations.ResultIsWrittenOnlyByGetPixel := by
  intro s i
  refine ⟨after i s, exec_eq_after i s, ?_⟩
  have hend := after_commandEnd i s
  cases i with
  | getPixel x y => exact hend.result_of_getPixel
  | _ =>
    obtain ⟨-, -, hresult⟩ := hend.kept
    exact hresult nofun

/-! ## STATUS at every request (10_state.md R24, R30, R31) -/

/-- The session state that STATUS shows while a command makes requests. -/
def liveSession (i : Instr) : Session := if isInit i then .configuring else .ready

/-- The transaction records STATUS as it reads with the `BUSY` of `s` and the session state of a running `i`. -/
def LiveIn (i : Instr) (s : State) (x : Transaction) : Prop :=
  ∃ u, x.status = statusWord u ∧ u.busy = s.busy ∧ u.session = liveSession i

theorem liveIn_of_ready {i : Instr} {s : State} (hi : isInit i = false) (hs : s.session = .ready) {x : Transaction}
    (hx : x.status = statusWord s) : LiveIn i s x := ⟨s, hx, rfl, by simp [liveSession, hi, hs]⟩

theorem liveIn_of_configuring {i : Instr} {s : State} (hi : isInit i = true) {o : Bool} {x : Transaction}
    (hx : x.status = statusWord { s with session := .configuring, owns := o }) : LiveIn i s x :=
  ⟨_, hx, rfl, by simp [liveSession, hi]⟩

/-- Every request of a command is made while STATUS shows the command running. -/
theorem CommandEnd.requests_live {i : Instr} {s t : State} (h : CommandEnd i s t) :
    ∃ new, t.trace = s.trace ++ new ∧ ∀ x ∈ new, LiveIn i s x := by
  cases h with
  | refused _ _ _ ht => subst ht; exact ⟨[], (List.append_nil _).symm, nofun⟩
  | fb u _ _ ht hu => subst ht; rw [hu]; exact ⟨[], (List.append_nil _).symm, nofun⟩
  | upd _ _ new _ _ _ _ _ hr hi _ htr _ hlive _ _ _ ht =>
    subst hi ht
    exact ⟨new, htr, fun x hx => liveIn_of_ready rfl hr (hlive x hx)⟩
  | deinitOwning _ _ _ _ hr hi _ _ htr _ ht =>
    subst hi ht
    refine ⟨_, htr, ?_⟩
    simp only [List.forall_mem_cons]
    exact ⟨liveIn_of_ready rfl hr rfl, liveIn_of_ready rfl hr rfl, nofun⟩
  | deinitBorrowed _ _ _ ht => subst ht; exact ⟨[], (List.append_nil _).symm, nofun⟩
  | borrow _ _ hi _ hb =>
    subst hi
    cases hb with
    | ok new _ _ htr _ hlive ht =>
      subst ht
      exact ⟨new, htr, fun x hx => liveIn_of_configuring rfl (hlive x hx)⟩
    | fail _ _ _ new _ _ htr _ _ _ hlive ht =>
      subst ht
      exact ⟨new, htr, fun x hx => liveIn_of_configuring rfl (hlive x hx)⟩
  | own _ _ _ hi ho =>
    subst hi
    cases ho with
    | noBus _ _ _ htr ht =>
      subst ht
      refine ⟨_, htr, ?_⟩
      simp only [List.forall_mem_cons]
      exact ⟨liveIn_of_configuring rfl rfl, nofun⟩
    | noDev _ _ _ _ _ htr ht =>
      subst ht
      refine ⟨_, htr, ?_⟩
      simp only [List.forall_mem_cons]
      exact ⟨liveIn_of_configuring rfl rfl, liveIn_of_configuring rfl rfl, liveIn_of_configuring rfl rfl, nofun⟩
    | ok _ _ new _ _ _ _ htr _ hlive ht =>
      subst ht
      refine ⟨_, htr.trans (List.append_assoc ..), ?_⟩
      simp only [List.forall_mem_append, List.forall_mem_cons]
      exact ⟨⟨liveIn_of_configuring rfl rfl, liveIn_of_configuring rfl rfl, nofun⟩,
        fun x hx => liveIn_of_configuring rfl (hlive x hx)⟩
    | undone _ _ _ _ _ _ _ new _ _ _ _ _ htr _ _ hlive ht =>
      subst ht
      refine ⟨_, htr.trans (by simp only [List.append_assoc]; rfl), ?_⟩
      simp only [List.forall_mem_append, List.forall_mem_cons]
      exact ⟨⟨liveIn_of_configuring rfl rfl, liveIn_of_configuring rfl rfl, nofun⟩,
        fun x hx => liveIn_of_configuring rfl (hlive x hx),
        liveIn_of_configuring rfl rfl, liveIn_of_configuring rfl rfl, nofun⟩

/-- Settles O49: the two fields of STATUS, by its layout. -/
theorem statusIsLiveAtEveryRequest : Obligations.StatusIsLiveAtEveryRequest := by
  intro s i hbusy
  obtain ⟨new, htr, hlive⟩ := (after_commandEnd i s).requests_live
  refine ⟨after i s, new, exec_eq_after i s, htr, fun x hx => ?_⟩
  obtain ⟨u, hstatus, hb, hsession⟩ := hlive x hx
  rw [hstatus, statusWord_busy, statusWord_session, hb, hsession]
  refine ⟨hbusy, ?_⟩
  unfold liveSession
  split <;> rfl

/-! ## The ghost PANEL_WIN_KNOWN (10_state.md R38) -/

/-- PANEL_WIN_KNOWN after a command `i` that ends in `t` and makes the requests `rs`: whether an UPDATE_SCREEN in a
READY session succeeded, 0 where an INIT_* transmitted, and as before otherwise. -/
def panelKnownAfter (i : Instr) (s t : State) (rs : List Request) : Bool :=
  if i = .updateScreen ∧ s.session = .ready then t.kind == .ok
  else if isInit i && rs.any isTransmit then false else s.panelWinKnown

theorem panelKnownAfter_updateScreen {s : State} (hs : s.session = .ready) (t : State) (rs : List Request) :
    panelKnownAfter .updateScreen s t rs = (t.kind == .ok) := if_pos ⟨rfl, hs⟩

/-- A command that is neither an UPDATE_SCREEN of a READY session nor an INIT_* that transmits keeps the bit. -/
theorem panelKnownAfter_kept {i : Instr} (s : State) {rs : List Request}
    (hi : s.session = .ready → i ≠ .updateScreen) (hrs : (isInit i && rs.any isTransmit) = false) (t : State) :
    panelKnownAfter i s t rs = s.panelWinKnown := by
  rw [panelKnownAfter, if_neg fun h => hi h.2 h.1, hrs]
  rfl

theorem panelKnownAfter_transmitted {i : Instr} {rs : List Request} (hi : isInit i = true)
    (hrs : rs.any isTransmit = true) (s t : State) : panelKnownAfter i s t rs = false := by
  have hne : i ≠ .updateScreen := by rintro rfl; cases hi
  rw [panelKnownAfter, if_neg fun h => hne h.1, hi, hrs]
  rfl

/-- All 26 frames are transmissions, and there is one. -/
theorem any_isTransmit_all_initFrames (s : State) (dev : Word32) : (initFrames s dev).any isTransmit = true := by
  have h := any_isTransmit_initFrames s dev 25
  rwa [List.take_of_length_le (by simp)] at h

theorem SameButBus.panelWinKnown_eq {s t : State} (h : SameButBus s t) : t.panelWinKnown = s.panelWinKnown := by
  obtain ⟨-, -, -, -, -, -, -, -, -, -, -, hpanel, -⟩ := h.fields
  exact hpanel

/-- Every command leaves PANEL_WIN_KNOWN as its requests and its code say. -/
theorem CommandEnd.panelWinKnown_eq {i : Instr} {s t : State} (h : CommandEnd i s t) :
    ∃ new, t.trace = s.trace ++ new ∧ t.panelWinKnown = panelKnownAfter i s t (requests new) := by
  cases h with
  | refused _ _ _ ht _ hu =>
    subst ht
    exact ⟨[], (List.append_nil _).symm, (panelKnownAfter_kept s hu (Bool.and_false _) _).symm⟩
  | fb u _ hi ht hu =>
    subst ht
    rw [hu]
    refine ⟨[], (List.append_nil _).symm, (panelKnownAfter_kept s ?_ (Bool.and_false _) _).symm⟩
    rintro - rfl
    cases hi
  | upd _ _ new _ _ _ _ _ hr hi _ htr _ _ _ _ _ ht =>
    subst hi ht
    exact ⟨new, htr, by rw [panelKnownAfter_updateScreen hr]; rfl⟩
  | deinitOwning _ _ _ _ _ hi _ hsame htr _ ht =>
    subst hi ht
    exact ⟨_, htr, hsame.panelWinKnown_eq.trans (panelKnownAfter_kept s (by simp) rfl _).symm⟩
  | deinitBorrowed _ hi _ ht =>
    subst hi ht
    exact ⟨[], (List.append_nil _).symm, (panelKnownAfter_kept s (by simp) rfl _).symm⟩
  | borrow hd _ hi _ hb =>
    subst hi
    cases hb with
    | ok new _ hsame htr hreq _ ht =>
      subst ht
      refine ⟨new, htr, hsame.panelWinKnown_eq.trans (panelKnownAfter_transmitted rfl ?_ _ _).symm⟩
      rw [hreq, any_isTransmit_all_initFrames]
    | fail k _ _ new _ hsame htr _ hreq _ _ ht =>
      subst ht
      refine ⟨new, htr, hsame.panelWinKnown_eq.trans (panelKnownAfter_transmitted rfl ?_ _ _).symm⟩
      rw [hreq, any_isTransmit_initFrames]
  | own _ _ _ hi ho =>
    subst hi
    cases ho with
    | noBus _ _ hsame htr ht =>
      subst ht
      exact ⟨_, htr, hsame.panelWinKnown_eq.trans (panelKnownAfter_kept s (by simp) rfl _).symm⟩
    | noDev _ _ _ _ hsame htr ht =>
      subst ht
      exact ⟨_, htr, hsame.panelWinKnown_eq.trans (panelKnownAfter_kept s (by simp) rfl _).symm⟩
    | ok _ _ new _ _ _ hsame htr hreq _ ht =>
      subst ht
      refine ⟨_, htr.trans (List.append_assoc ..),
        hsame.panelWinKnown_eq.trans (panelKnownAfter_transmitted rfl ?_ _ _).symm⟩
      simp [hreq, any_isTransmit_all_initFrames]
    | undone _ _ k _ _ _ _ new _ _ _ hsame _ htr hreq _ _ ht =>
      subst ht
      refine ⟨_, htr.trans (by simp only [List.append_assoc]; rfl),
        hsame.panelWinKnown_eq.trans (panelKnownAfter_transmitted rfl ?_ _ _).symm⟩
      simp [hreq, any_isTransmit_initFrames]

/-- Settles O52: `panelKnownAfter` at the requests a command makes. -/
theorem panelWindowIsKnownAfterAnUpdate : Obligations.PanelWindowIsKnownAfterAnUpdate := fun s i =>
  have ⟨new, htr, hpanel⟩ := (after_commandEnd i s).panelWinKnown_eq
  ⟨after i s, new, exec_eq_after i s, htr, hpanel⟩

end Sys2Proof.Machine
end

section
/-! PROOFS. The bytes of a command on the port (20_memory.md R62) decode to it: its word selects its row, sets no
reserved bit, and announces its payload. -/

namespace Sys2Proof

/-! ## An instruction's word under the mask of its format (30_encoding.md R81, R85) -/

/-- A word under a mask, field by field. -/
theorem packWord_and (op a b c d op' a' b' c' d' : Byte) (e e' : BitVec 24) :
    packWord op a b c d e &&& packWord op' a' b' c' d' e' =
      packWord (op &&& op') (a &&& a') (b &&& b') (c &&& c') (d &&& d') (e &&& e') := by
  unfold packWord
  iterate 5 rw [← BitVec.and_append]

theorem matchOf_eq_packWord (op : Byte) : matchOf op = packWord op 0 0 0 0 0 := by
  ext i hi
  simp only [matchOf, packWord, ← BitVec.getLsbD_eq_getElem, BitVec.getLsbD_append]
  interval_cases i <;> simp

/-- The mask of a format by the fields of the word: ones where the format reserves a bit (R81). -/
def maskFields : Format → Word
  | .N => packWord 0xFF 0xFF 0xFF 0xFF 0xFF 0xFFFFFF
  | .P => packWord 0xFF 0 0 0xFE 0xFF 0xFFFFFF
  | .Q | .O => packWord 0xFF 0 0 0xFF 0xFF 0xFFFFFF
  | .G => packWord 0xFF 0 0 0 0xFF 0xFFFFFF
  | .R => packWord 0xFF 0 0 0 0 0xFFFFFF
  | .T => packWord 0xFF 0 0 0xFE 0xFF 0xFF0000
  | .H => packWord 0xFF 0xFF 0xFF 0xFF 0 0

theorem mask_eq_maskFields (f : Format) : f.mask = maskFields f := by
  cases f <;> rfl

/-- The format of an instruction's word (R84). -/
def formatOf : Instr → Format
  | .initOwning _ _ => .O
  | .initBorrowing _ => .H
  | .deinit | .clearDisplay | .updateScreen => .N
  | .setPixel _ _ _ => .P
  | .getPixel _ _ => .Q
  | .drawChar _ _ _ => .G
  | .drawText _ _ _ _ => .T
  | .clearArea _ _ _ _ => .R

/-- `flagByte_bit` in the form `simp` brings the bit to. -/
@[simp] theorem flagByte_getElem_zero (on : Bool) : (flagByte on)[0] = on := flagByte_bit on

/-- The row of the opcode table that an instruction's word selects is its own, with its operands (R82, R84). -/
theorem opcodeRow_encodeWord (i : Instr) : opcodeRow (encodeWord i) i.payload = some (formatOf i, i) := by
  cases i <;> simp [opcodeRow, encodeWord, formatOf, Instr.payload, handle_append]

theorem flagByte_and_reserved (on : Bool) : flagByte on &&& 0xFE#8 = 0#8 := by
  cases on <;> rfl

/-- A length that fits `LEN` leaves the reserved bits of field `E` clear. -/
theorem ofNat_and_reserved_of_lt {n : Nat} (h : n < 65536) : BitVec.ofNat 24 n &&& 0xFF0000#24 = 0#24 := by
  have hsmall : BitVec.ofNat 24 n = (BitVec.ofNat 16 n).setWidth 24 := by
    apply BitVec.eq_of_toNat_eq
    simp only [BitVec.toNat_setWidth, BitVec.toNat_ofNat]
    omega
  rw [hsmall]
  ext i hi
  interval_cases i <;> simp

/-- No reserved bit of an instruction's word is set (R85). -/
theorem encodeWord_and_mask {i : Instr} (h : i.wf = true) :
    encodeWord i &&& (formatOf i).mask = matchOf (opcodeOf (encodeWord i)) := by
  rw [mask_eq_maskFields]
  cases i with
  | drawText x pg sp p =>
    have hlen : p.length < 65536 := by simpa [Instr.wf] using h
    simp [encodeWord, formatOf, maskFields, packWord_and, matchOf_eq_packWord, flagByte_and_reserved,
      ofNat_and_reserved_of_lt hlen]
  | _ => simp [encodeWord, formatOf, maskFields, packWord_and, matchOf_eq_packWord, flagByte_and_reserved]

/-! ## An instruction's word and bytes (20_memory.md R62, 30_encoding.md R88) -/

theorem decodeWord_encodeWord {i : Instr} (h : i.wf = true) : decodeWord (encodeWord i) i.payload = .ok i := by
  simp only [decodeWord, opcodeRow_encodeWord, encodeWord_and_mask h, if_true]

/-- The word of a well-formed instruction announces its payload (R88). -/
theorem payloadLength_encodeWord {i : Instr} (h : i.wf = true) : payloadLength (encodeWord i) = i.payload.length := by
  cases i with
  | initOwning scl sda => exact (Laws.EncodedOpcode.initOwning scl sda h).2
  | initBorrowing handle => exact (Laws.EncodedOpcode.initBorrowing handle h).2
  | deinit => exact (Laws.EncodedOpcode.deinit h).2
  | setPixel x y on => exact (Laws.EncodedOpcode.setPixel x y on h).2
  | getPixel x y => exact (Laws.EncodedOpcode.getPixel x y h).2
  | drawChar c x pg => exact (Laws.EncodedOpcode.drawChar c x pg h).2
  | drawText x pg sp payload => exact (Laws.EncodedOpcode.drawText x pg sp payload h).2
  | clearArea x pg wd ht => exact (Laws.EncodedOpcode.clearArea x pg wd ht h).2
  | clearDisplay => exact (Laws.EncodedOpcode.clearDisplay h).2
  | updateScreen => exact (Laws.EncodedOpcode.updateScreen h).2

/-- The port takes an instruction's bytes as its word and its payload, and leaves what follows. -/
theorem fetchCommand_encodeBytes {i : Instr} (h : i.wf = true) (rest : List Byte) :
    fetchCommand (encodeBytes i ++ rest) = some ⟨encodeWord i, i.payload, rest⟩ :=
  fetchCommand_append (encodeWord i) i.payload rest (payloadLength_encodeWord h).symm

/-- Settles O2: the port gives the encoded word with its payload, and the word decodes to its instruction. -/
theorem decodeOfEncodeIsTheInstruction : Obligations.DecodeOfEncodeIsTheInstruction := by
  intro i rest h
  simp only [decodeBytes, fetchCommand_encodeBytes h, decodeWord_encodeWord h]

end Sys2Proof
end

section
/-! PROOFS. The memories and their traffic (20_memory.md): the frames of UPDATE_SCREEN (R64, R67), the pixels and bytes
of the framebuffer (R51, R53), and the entries of the glyph ROM (R56). -/

namespace Sys2Proof.Machine

open Safety

/-! ## UPDATE_SCREEN under every answer (42_bus_protocol.md R180, R183) -/

/-- Settles O29: the four ways UPDATE_SCREEN can end, each with its number of frames and its code. -/
theorem updateScreenRequestsAPrefixOfItsFrames : Obligations.UpdateScreenRequestsAPrefixOfItsFrames := by
  intro s hready
  obtain ⟨u, n, -, hgrew, hpos, hle, hend⟩ := updateScreen_cases s
  have hexec : exec .updateScreen s = .next (updateScreen s) := congrArg Host.Outcome.next (whenReady_of_ready hready)
  refine ⟨updateScreen s, n, hexec, hpos, hle, ?_⟩
  rcases hend with ⟨hn, he⟩ | ⟨k, b, e, -, -, he⟩ | ⟨hn, he⟩ | ⟨hn, e, he⟩ <;> rw [he]
  · exact ⟨hgrew.requests_eq, fun _ => hn, nofun, .inl rfl⟩
  · exact ⟨hgrew.requests_eq, nofun, nofun, .inr (.inr rfl)⟩
  · exact ⟨hgrew.requests_eq, nofun, fun _ => hn, .inr (.inl rfl)⟩
  · exact ⟨hgrew.requests_eq, nofun, nofun, .inr (.inr rfl)⟩

/-! ## Pixels and framebuffer bytes (R51, R53) -/

theorem indexColumn_columnIndex {x : Nat} (hx : x < 128) (p : Nat) : indexColumn (columnIndex x p) = x := by
  simp only [indexColumn, columnIndex, Config.W]; omega

theorem indexPage_columnIndex {x : Nat} (hx : x < 128) (p : Nat) : indexPage (columnIndex x p) = p := by
  simp only [indexPage, columnIndex, Config.W]; omega

theorem columnIndex_of_index (i : Nat) : columnIndex (indexColumn i) (indexPage i) = i := by
  simp only [indexColumn, indexPage, columnIndex, Config.W]; omega

theorem indexRow_div (i : Nat) {b : Nat} (hb : b < 8) : indexRow i b / 8 = indexPage i := by
  simp only [indexRow]; omega

theorem pixelBit_indexRow (i : Nat) {b : Nat} (hb : b < 8) : pixelBit (indexRow i b) = b := by
  simp only [indexRow, pixelBit]; omega

/-- Settles O10: the page of a pixel is `y / 8`, and a byte's column and page give its index back. -/
theorem pixelDecoderIsABijection : Obligations.PixelDecoderIsABijection := by
  refine ⟨fun x y hx hy => ?_, fun i b hi hb => ?_⟩
  · have hlt : pixelIndex x y < 1024 := pixelIndex_lt ((pixelInRange_iff x y).mpr ⟨hx, hy⟩)
    refine ⟨rfl, rfl, hlt, Nat.mod_lt _ (by decide), indexColumn_columnIndex hx _, ?_⟩
    rw [indexRow, pixelIndex, indexPage_columnIndex hx, pixelBit, Nat.div_add_mod']
  · have hrow : indexRow i b < 64 := by simp only [indexRow, indexPage, Config.W]; omega
    refine ⟨rfl, rfl, Nat.mod_lt _ (by decide), hrow, ?_, pixelBit_indexRow i hb⟩
    rw [pixelIndex, indexRow_div i hb, columnIndex_of_index]

/-! ## Glyph indices (R56) -/

/-- Settles O16: the two branches of the glyph index, and `glyphRead` by its definition. -/
theorem glyphIndexSubstitutes : Obligations.GlyphIndexSubstitutes := by
  refine fun c => ⟨fun hlo hhi => ?_, fun hout => ?_, fun _ _ _ => rfl⟩
  · rw [glyphIndex_val, if_pos ⟨hlo, hhi⟩]
  · have hsub : glyphIndex c = glyphIndex 0x3F := glyphIndex_of_outside hout
    exact ⟨congrArg Fin.val hsub, hsub⟩

end Sys2Proof.Machine
end

section
/-! PROOFS. Legal and illegal command words (30_encoding.md): a word that decodes is the encoding of its instruction
(R82, R85, R88), and a word with a reserved bit or an undefined opcode completes `IllegalCommand` (R86, R87). -/

namespace Sys2Proof

open Machine Safety

/-! ## A word is its six fields (R80) -/

theorem packWord_fields (w : Word) :
    packWord (opcodeOf w) (fieldA w) (fieldB w) (fieldC w) (fieldD w) (w.extractLsb' 0 24) = w := by
  ext i hi
  simp only [opcodeOf, fieldA, fieldB, fieldC, fieldD, packWord, ← BitVec.getLsbD_eq_getElem, BitVec.getLsbD_append,
    BitVec.getLsbD_extractLsb']
  interval_cases i <;> simp

theorem exists_packWord (w : Word) : ∃ op a b c d e, w = packWord op a b c d e :=
  ⟨_, _, _, _, _, _, (packWord_fields w).symm⟩

theorem packWord_inj {op a b c d op' a' b' c' d' : Byte} {e e' : BitVec 24} :
    packWord op a b c d e = packWord op' a' b' c' d' e' ↔
      op = op' ∧ a = a' ∧ b = b' ∧ c = c' ∧ d = d' ∧ e = e' := by
  refine ⟨fun h => ?_, by rintro ⟨rfl, rfl, rfl, rfl, rfl, rfl⟩; rfl⟩
  have he : e = e' := by
    have hlow := congrArg (BitVec.extractLsb' 0 24) h
    rwa [packWord, packWord, BitVec.extractLsb'_append_eq_right, BitVec.extractLsb'_append_eq_right] at hlow
  exact ⟨by simpa using congrArg opcodeOf h, by simpa using congrArg fieldA h, by simpa using congrArg fieldB h,
    by simpa using congrArg fieldC h, by simpa using congrArg fieldD h, he⟩

/-! ## A field whose reserved bits are clear (R81, R85) -/

theorem byte_and_ones (v : Byte) : v &&& 0xFF#8 = v := BitVec.and_allOnes

theorem fieldE_and_ones (e : BitVec 24) : e &&& 0xFFFFFF#24 = e := BitVec.and_allOnes

/-- Field `C` of formats P and T is its flag. -/
theorem flagByte_of_reserved_clear {v : Byte} (h : v &&& 0xFE#8 = 0#8) : flagByte v[0] = v := by
  revert v; decide

/-- Field `E` of format T is its `LEN`. -/
theorem len_of_reserved_clear {e : BitVec 24} (h : e &&& 0xFF0000#24 = 0#24) : (e.setWidth 16).toNat = e.toNat := by
  have hsmall : e.toNat < 2 ^ 16 := by
    refine Nat.lt_pow_two_of_testBit _ fun i hlow => ?_
    rw [BitVec.testBit_toNat]
    by_cases hi : i < 24
    · have hbit := congrArg (fun v => BitVec.getLsbD v i) h
      interval_cases i <;> simpa using hbit
    · exact BitVec.getLsbD_of_ge e i (Nat.le_of_not_lt hi)
  rw [BitVec.toNat_setWidth, Nat.mod_eq_of_lt hsmall]

/-! ## A legal word is the encoding of its instruction (R82, R85, R88) -/

theorem payloadLength_lt (w : Word) : payloadLength w < 65536 := by
  unfold payloadLength
  split
  · exact (fieldLen w).isLt
  · decide

/-- The row of a word's opcode gives an instruction that carries the word's payload and is well formed. -/
theorem opcodeRow_operands {w : Word} {p : List Byte} {f : Format} {i : Instr} (hp : p.length = payloadLength w)
    (hrow : opcodeRow w p = some (f, i)) : i.wf = true ∧ i.payload = p := by
  unfold opcodeRow at hrow
  split at hrow <;> rename_i hop <;> cases hrow
  case h_7.refl => exact ⟨decide_eq_true (hp ▸ payloadLength_lt w), rfl⟩
  all_goals
    have hnone : payloadLength w = 0 := by rw [payloadLength, hop]; rfl
    exact ⟨rfl, (List.length_eq_zero_iff.mp (hp.trans hnone)).symm⟩

/-- With no reserved bit set, the fields of a word are its operands and zeros: what its instruction encodes to.
Two rows need more than that: INIT_BORROWING, whose operand spans two fields, and DRAW_TEXT, whose `LEN` is its
payload's length. -/
theorem encodeWord_of_opcodeRow {w : Word} {p : List Byte} {f : Format} {i : Instr} (hp : p.length = payloadLength w)
    (hrow : opcodeRow w p = some (f, i)) (hmask : w &&& f.mask = matchOf (opcodeOf w)) : encodeWord i = w := by
  obtain ⟨op, a, b, c, d, e, rfl⟩ := exists_packWord w
  rw [opcodeOf_packWord, mask_eq_maskFields, matchOf_eq_packWord] at hmask
  rw [opcodeRow, opcodeOf_packWord] at hrow
  split at hrow <;> cases hrow <;>
    simp only [maskFields, packWord_and, packWord_inj, BitVec.ofNat_eq_ofNat, byte_and_ones, fieldE_and_ones] at hmask
  case h_2.refl =>
    obtain ⟨-, ha, hb, hc, -, -⟩ := hmask
    rw [encodeWord, fieldHandle_packWord, BitVec.extractLsb'_append_eq_left, BitVec.extractLsb'_append_eq_right, ha,
      hb, hc]
    rfl
  case h_7.refl =>
    obtain ⟨-, -, -, hc, hd, he⟩ := hmask
    have hlen : p.length = e.toNat := by
      rw [hp, ← len_of_reserved_clear he, payloadLength, opcodeOf_packWord, fieldLen_packWord]; rfl
    simp [encodeWord, hlen, flagByte_of_reserved_clear hc, hd]
  all_goals simp [encodeWord, hmask, flagByte_of_reserved_clear]

theorem decodeWord_ok_iff {w : Word} {p : List Byte} {i : Instr} :
    decodeWord w p = .ok i ↔ ∃ f, opcodeRow w p = some (f, i) ∧ w &&& f.mask = matchOf (opcodeOf w) := by
  cases hrow : opcodeRow w p with
  | none => simp [decodeWord, hrow]
  | some row =>
    obtain ⟨f, j⟩ := row
    by_cases hmask : w &&& f.mask = matchOf (opcodeOf w) <;> simp [decodeWord, hrow, hmask]

/-- Settles O3: the row gives the operands and the payload, and the mask leaves no other bit. -/
theorem legalWordIsTheEncodingOfItsInstruction : Obligations.LegalWordIsTheEncodingOfItsInstruction := by
  intro w p i hp hdecode
  obtain ⟨f, hrow, hmask⟩ := decodeWord_ok_iff.mp hdecode
  obtain ⟨hwf, hpayload⟩ := opcodeRow_operands hp hrow
  exact ⟨hwf, encodeWord_of_opcodeRow hp hrow hmask, hpayload⟩

/-! ## Illegal words (R86, R87) -/

/-- The reserved bits of an opcode are the bits of its row's mask below the opcode, and it has none where it has no
row. -/
theorem reservedBits_opcodeOf (w : Word) (p : List Byte) :
    reservedBits (opcodeOf w) = (opcodeRow w p).map fun row => row.1.mask &&& ~~~matchOf 0xFF := by
  unfold opcodeRow
  split <;> rename_i hop
  case h_11 => simp [reservedBits]
  all_goals simp only [hop, Option.map_some]; rfl

theorem matchOf_and_operandBits (op : Byte) : matchOf op &&& ~~~matchOf 0xFF = 0 := by
  have hlow : ~~~matchOf 0xFF = packWord 0 0xFF 0xFF 0xFF 0xFF 0xFFFFFF := rfl
  rw [hlow, matchOf_eq_packWord, packWord_and]
  simp [packWord]

theorem decodeWord_of_reserved_set {w m : Word} (p : List Byte) (hm : reservedBits (opcodeOf w) = some m)
    (hset : w &&& m ≠ 0) : decodeWord w p = .error .reservedBits := by
  rw [reservedBits_opcodeOf w p, Option.map_eq_some_iff] at hm
  obtain ⟨⟨f, i⟩, hrow, rfl⟩ := hm
  have hmask : w &&& f.mask ≠ matchOf (opcodeOf w) := fun h =>
    hset (by rw [← BitVec.and_assoc, h, matchOf_and_operandBits])
  simp only [decodeWord, hrow, hmask, if_false]

theorem decodeWord_of_undefined {w : Word} (p : List Byte) (hw : reservedBits (opcodeOf w) = none) :
    decodeWord w p = .error .undefinedOpcode := by
  rw [reservedBits_opcodeOf w p, Option.map_eq_none_iff] at hw
  simp only [decodeWord, hw]

/-- A word with an undefined opcode has no payload (R87, R88). -/
theorem payloadLength_of_undefined {w : Word} (hw : reservedBits (opcodeOf w) = none) : payloadLength w = 0 := by
  refine if_neg fun hop => ?_
  rw [hop] at hw
  cases hw

/-- A word that does not decode completes `IllegalCommand`, with its payload taken from the port, and changes nothing
else. -/
theorem step_of_decode_error {s : State} {w : Word} {p rest : List Byte} {ms : List HostMove} {err : DecodeError}
    (hidle : s.busy = false) (hhost : s.host = .send (bytesOfWord w ++ p ++ rest) :: ms)
    (hp : p.length = payloadLength w) (herr : decodeWord w p = .error err) :
    step s = .next (endedPlain .illegalCommand { s with host := restMoves rest ms, cmd := w }) := by
  have hfetch := fetchCommand_append w p rest hp
  rw [step_send (ne_nil_of_fetchCommand hfetch) hhost, runCommand_of_fetch ms hidle hfetch, herr]
  rfl

/-- Settles O4: a set reserved bit fails the mask of the opcode's row. -/
theorem reservedBitCompletesIllegalCommand : Obligations.ReservedBitCompletesIllegalCommand := by
  intro s w m p rest ms hidle hhost hp hm hset
  exact step_of_decode_error hidle hhost hp (decodeWord_of_reserved_set p hm hset)

/-- Settles O5: an undefined opcode has no row, and its word announces no payload. -/
theorem undefinedOpcodeCompletesIllegalCommand : Obligations.UndefinedOpcodeCompletesIllegalCommand := by
  intro s w rest ms hidle hhost hw
  have hp : ([] : List Byte).length = payloadLength w := (payloadLength_of_undefined hw).symm
  exact step_of_decode_error hidle (by simpa using hhost) hp (decodeWord_of_undefined [] hw)

/-! ## Words written out (R81, R84, R90) -/

/-- Settles O1: each word is, by evaluation, the encoding of its command, and decodes to it. -/
theorem spelledWordsDecode : Obligations.SpelledWordsDecode :=
  ⟨decodeWord_encodeWord (i := .initOwning 22 21) rfl,
    decodeWord_encodeWord (i := .initBorrowing 0x1234) rfl,
    decodeWord_encodeWord (i := .deinit) rfl,
    decodeWord_encodeWord (i := .setPixel 5 10 true) rfl,
    decodeWord_encodeWord (i := .getPixel 127 63) rfl,
    decodeWord_encodeWord (i := .drawChar 200 10 2) rfl,
    decodeWord_encodeWord (i := .drawText 120 0 true [0x41, 0x42]) rfl,
    decodeWord_encodeWord (i := .clearArea 120 7 9 1) rfl,
    decodeWord_encodeWord (i := .clearDisplay) rfl,
    decodeWord_encodeWord (i := .updateScreen) rfl⟩

end Sys2Proof
end

section
/-! PROOFS. The framebuffer commands (41_framebuffer.md): what each does in a READY session, as one equation for each
of its paths, and what follows for pixels, glyphs, text and rectangles. -/

namespace Sys2Proof.Machine

open Config Safety

/-! ## Outside READY, and what no framebuffer command changes (R120, R121) -/

/-- Settles O23: the session check answers before the command does anything. -/
theorem notReadyCompletesNotInitialized : Obligations.NotReadyCompletesNotInitialized := by
  intro s i hs hi
  rw [exec_eq_after, after_not_ready hi hs, finish_notInitialized_eq]

/-- Settles O24: every path ends in a plain completion of a state that differs only in what drawing and the pixel read
write. -/
theorem framebufferCommandsMakeNoRequest : Obligations.FramebufferCommandsMakeNoRequest := by
  intro s i hi
  obtain ⟨k, u, hafter, hkind, hframe⟩ := after_framebuffer hi s
  have hexec : exec i s = .next (endedPlain k u) := by rw [exec_eq_after, hafter]
  rcases hkind with rfl | rfl | rfl <;> exact ⟨_, hexec, rfl, nofun, nofun, congrArg (endedPlain _) hframe⟩

/-! ## Each command in READY, path by path -/

theorem exec_setPixel_of_ready {s : State} (h : s.session = .ready) (x y : Byte) (on : Bool) :
    exec (.setPixel x y on) s = .next (endedPlain .ok { s with fb := pixelMem s.fb x.toNat y.toNat on }) :=
  congrArg Host.Outcome.next (whenReady_of_ready h)

theorem exec_getPixel_of_inRange {s : State} (h : s.session = .ready) {x y : Byte}
    (hr : pixelInRange x.toNat y.toNat = true) :
    exec (.getPixel x y) s = .next (endedPlain .ok
      { s with result := (memRead s.fb (pixelIndex x.toNat y.toNat)).getLsbD (pixelBit y.toNat) }) :=
  congrArg Host.Outcome.next ((whenReady_of_ready h).trans (if_pos hr))

theorem exec_getPixel_of_not_inRange {s : State} (h : s.session = .ready) {x y : Byte}
    (hr : ¬ pixelInRange x.toNat y.toNat = true) :
    exec (.getPixel x y) s = .next (endedPlain .invalidArgument s) :=
  congrArg Host.Outcome.next ((whenReady_of_ready h).trans (if_neg hr))

theorem drawGlyph_of_onScreen (c : Byte) (x : Nat) {p : Nat} (hp : p < PAGES) (s : State) :
    drawGlyph c x p s = { s with fb := glyphMem s.glyphRom s.fb c x p } :=
  if_neg (Nat.not_le_of_lt hp)

theorem drawGlyph_of_offScreen (c : Byte) (x : Nat) {p : Nat} (hp : PAGES ≤ p) (s : State) :
    drawGlyph c x p s = { s with diag := s.diag ++ [⟨c, x, p⟩] } :=
  if_pos hp

theorem exec_drawChar_of_onScreen {s : State} (h : s.session = .ready) (c x : Byte) {pg : Byte} (hp : pg.toNat < 8) :
    exec (.drawChar c x pg) s = .next (endedPlain .ok
      { s with fb := glyphMem s.glyphRom s.fb c x.toNat pg.toNat }) :=
  congrArg Host.Outcome.next
    ((whenReady_of_ready h).trans (congrArg complete (drawGlyph_of_onScreen c x.toNat hp s)))

theorem exec_drawChar_of_offScreen {s : State} (h : s.session = .ready) (c x : Byte) {pg : Byte} (hp : 8 ≤ pg.toNat) :
    exec (.drawChar c x pg) s = .next (endedPlain .ok { s with diag := s.diag ++ [⟨c, x.toNat, pg.toNat⟩] }) :=
  congrArg Host.Outcome.next
    ((whenReady_of_ready h).trans (congrArg complete (drawGlyph_of_offScreen c x.toNat hp s)))

theorem exec_drawText_of_valid {s : State} (h : s.session = .ready) (x pg : Byte) {sp : Bool} {p : List Byte}
    (hv : textValid sp p.length s = true) :
    exec (.drawText x pg sp p) s = .next (endedPlain .ok (layoutText x.toNat pg.toNat (payloadString p) s)) :=
  congrArg Host.Outcome.next ((whenReady_of_ready h).trans (if_pos hv))

theorem exec_drawText_of_not_valid {s : State} (h : s.session = .ready) (x pg : Byte) {sp : Bool} {p : List Byte}
    (hv : ¬ textValid sp p.length s = true) :
    exec (.drawText x pg sp p) s = .next (endedPlain .invalidArgument s) :=
  congrArg Host.Outcome.next ((whenReady_of_ready h).trans (if_neg hv))

theorem exec_clearArea_of_valid {s : State} (h : s.session = .ready) {x pg wd ht : Byte}
    (hv : areaValid x.toNat pg.toNat wd.toNat ht.toNat = true) :
    exec (.clearArea x pg wd ht) s = .next (endedPlain .ok
      { s with fb := memClear s.fb (areaIndices x.toNat pg.toNat wd.toNat ht.toNat) }) :=
  congrArg Host.Outcome.next ((whenReady_of_ready h).trans (if_pos hv))

theorem exec_clearArea_of_not_valid {s : State} (h : s.session = .ready) {x pg wd ht : Byte}
    (hv : ¬ areaValid x.toNat pg.toNat wd.toNat ht.toNat = true) :
    exec (.clearArea x pg wd ht) s = .next (endedPlain .invalidArgument s) :=
  congrArg Host.Outcome.next ((whenReady_of_ready h).trans (if_neg hv))

theorem exec_clearDisplay_of_ready {s : State} (h : s.session = .ready) :
    exec .clearDisplay s = .next (endedPlain .ok { s with fb := zeroMemory }) :=
  congrArg Host.Outcome.next (whenReady_of_ready h)

/-! ## Pixels (R122 to R124) -/

/-- The bits after a pixel write: one bit of one byte, where the pixel is in range. -/
theorem getLsbD_memRead_pixelMem {m : Memory} (h : m.wf = true) (x y : Nat) (on : Bool) (a b : Nat) :
    (memRead (pixelMem m x y on) a).getLsbD b =
      if x < 128 ∧ y < 64 ∧ a = pixelIndex x y ∧ b = pixelBit y then on else (memRead m a).getLsbD b := by
  simp only [memRead_pixelMem h, pixelInRange_iff]
  by_cases hbyte : (x < 128 ∧ y < 64) ∧ a = pixelIndex x y
  · have hbit : pixelBit y < 8 := Nat.mod_lt y (by decide)
    rw [if_pos hbyte, getLsbD_setBit _ hbit]
    simp [hbyte]
  · rw [if_neg hbyte, if_neg fun ⟨hx, hy, ha, _⟩ => hbyte ⟨⟨hx, hy⟩, ha⟩]

/-- Settles O11: the bits of the pixel write. -/
theorem setPixelChangesExactlyOneBit : Obligations.SetPixelChangesExactlyOneBit := fun s x y on hready hwf =>
  ⟨pixelMem s.fb x.toNat y.toNat on, exec_setPixel_of_ready hready x y on,
    getLsbD_memRead_pixelMem hwf x.toNat y.toNat on⟩

/-- Settles O12: the two answers of the range check. -/
theorem getPixelReadsThePixel : Obligations.GetPixelReadsThePixel := by
  refine fun s x y hready => ⟨fun hx hy => ?_, fun hout => ?_⟩
  · exact exec_getPixel_of_inRange hready ((pixelInRange_iff _ _).mpr ⟨hx, hy⟩)
  · refine exec_getPixel_of_not_inRange hready fun hr => ?_
    obtain ⟨hx, hy⟩ := (pixelInRange_iff _ _).mp hr
    omega

/-- Settles O13: SET_PIXEL keeps the session READY, and GET_PIXEL reads the bit that it wrote. -/
theorem setPixelThenGetPixel : Obligations.SetPixelThenGetPixel := by
  intro s x y on hready hwf hx hy
  have hget := exec_getPixel_of_inRange (s := endedPlain .ok { s with fb := pixelMem s.fb x.toNat y.toNat on }) hready
    ((pixelInRange_iff x.toNat y.toNat).mpr ⟨hx, hy⟩)
  refine ⟨_, _, exec_setPixel_of_ready hready x y on, hget, rfl, ?_, rfl⟩
  exact (getLsbD_memRead_pixelMem hwf _ _ on _ _).trans (if_pos ⟨hx, hy, rfl, rfl⟩)

/-! ## Glyphs (R125 to R127) -/

/-- Settles O14: the bytes after a glyph on the screen. -/
theorem drawCharWritesTheGlyphClipped : Obligations.DrawCharWritesTheGlyphClipped := fun s c x pg hready hwf hpg =>
  ⟨glyphMem s.glyphRom s.fb c x.toNat pg.toNat, exec_drawChar_of_onScreen hready c x hpg,
    memRead_glyphMem s.glyphRom hwf c x.toNat hpg⟩

/-- Settles O15: off the screen drawing a glyph is its record. -/
theorem drawCharOffScreenOnlyDiagnoses : Obligations.DrawCharOffScreenOnlyDiagnoses := fun _ c x _ hready hpg =>
  exec_drawChar_of_offScreen hready c x hpg

theorem glyphMem_of_outside (rom : Vector Glyph 95) (m : Memory) {c : Byte} (h : c.toNat < 32 ∨ 126 < c.toNat)
    (x p : Nat) : glyphMem rom m c x p = glyphMem rom m 0x3F x p := by
  rw [glyphMem, glyphMem, glyphIndex_of_outside h]

/-- Settles O17: on the screen the glyph is the same, and off the screen no byte is written. -/
theorem substitutedCharacterDrawsTheQuestionMark : Obligations.SubstitutedCharacterDrawsTheQuestionMark := by
  intro s c x p hc
  by_cases hp : p < PAGES
  · simp only [drawGlyph_of_onScreen _ x hp, glyphMem_of_outside s.glyphRom s.fb hc]
  · simp only [drawGlyph_of_offScreen _ x (Nat.le_of_not_lt hp)]

/-! ## Text (R128 to R131) -/

/-- The walk starts at the place of character 0, or with a wrap due. -/
theorem atChar_zero (x pg : Nat) (s : State) : AtChar x pg 0 { s with curX := x, curY := pg } := by
  have hcol : textColumn x 0 = x := by simp [textColumn]
  unfold AtChar
  by_cases hwrap : 123 ≤ x
  · have hpage : textPage x pg 0 = pg + 1 := if_neg (by omega)
    rw [if_pos hwrap]
    exact ⟨hcol.symm, hpage.symm, fun hx => by omega⟩
  · have hpage : textPage x pg 0 = pg := by simp [textPage, Nat.le_of_lt_succ (Nat.lt_of_not_le hwrap)]
    rw [if_neg hwrap]
    exact ⟨hcol.symm, hpage.symm, id, fun _ => charsPerPage_pos x⟩

/-- A text draws and records what its closed form says, and changes nothing else but the layout registers. -/
theorem layoutText_eq (x pg : Nat) (str : List Byte) (s : State) :
    layoutText x pg str s =
      { s with
        fb := textMem s.glyphRom x pg str s.fb, diag := s.diag ++ textDiag x pg str
        curX := (layoutText x pg str s).curX, curY := (layoutText x pg str s).curY } := by
  obtain ⟨hfb, hdiag⟩ := layoutWalk_spec x pg str 0 _ (atChar_zero x pg s)
  have hfb' : (layoutText x pg str s).fb = textMem s.glyphRom x pg str s.fb := hfb
  have hdiag' : (layoutText x pg str s).diag = s.diag ++ textDiag x pg str := hdiag
  rw [← hfb', ← hdiag']
  exact layoutText_same x pg str s

theorem textValid_iff (sp : Bool) (n : Nat) (s : State) :
    textValid sp n s = true ↔ sp = true ∧ n ≤ s.params.textMax := by
  simp [textValid]

/-- Settles O18: a valid text is laid out, by its closed form. -/
theorem drawTextPlacesEveryCharacter : Obligations.DrawTextPlacesEveryCharacter := by
  intro s x pg p hready hlen
  have hv : textValid true p.length s = true := (textValid_iff true p.length s).mpr ⟨rfl, hlen⟩
  have hlayout := layoutText_eq x.toNat pg.toNat (payloadString p) s
  exact ⟨_, _, (exec_drawText_of_valid hready x pg hv).trans
    (congrArg (fun t => Host.Outcome.next (endedPlain .ok t)) hlayout)⟩

/-- Settles O19: the check of the arguments answers before the walk begins. -/
theorem drawTextRejectsMalformedText : Obligations.DrawTextRejectsMalformedText := by
  intro s x pg sp p hready hbad
  refine exec_drawText_of_not_valid hready x pg fun hv => ?_
  obtain ⟨hsp, hlen⟩ := (textValid_iff ..).mp hv
  rcases hbad with hno | hlong
  · exact Bool.noConfusion (hsp.symm.trans hno)
  · exact absurd hlen (Nat.not_le_of_lt hlong)

/-! ## Rectangles (R132, R133) -/

/-- The bytes after a rectangle that fits is cleared. -/
theorem memRead_clearedArea {m : Memory} (h : m.wf = true) {x pg wd ht : Nat} (hv : areaValid x pg wd ht = true)
    (a : Nat) :
    memRead (memClear m (areaIndices x pg wd ht)) a =
      if x ≤ a % 128 ∧ a % 128 < x + wd ∧ pg ≤ a / 128 ∧ a / 128 < pg + ht then 0 else memRead m a := by
  rw [memRead_memClear _ h (areaIndices_lt hv)]
  exact if_congr (mem_areaIndices hv a) rfl rfl

/-- Settles O20: the two answers of the check of the arguments. -/
theorem clearAreaZeroesExactlyTheRectangle : Obligations.ClearAreaZeroesExactlyTheRectangle := by
  refine fun s x pg wd ht hready => ⟨fun hin hwf => ?_, fun hout => ?_⟩
  · have hv := (areaValid_iff x.toNat pg.toNat wd.toNat ht.toNat).mpr hin
    exact ⟨_, exec_clearArea_of_valid hready hv, memRead_clearedArea hwf hv⟩
  · exact exec_clearArea_of_not_valid hready fun hv => hout ((areaValid_iff ..).mp hv)

/-- Settles O21: the zero memory reads 0 everywhere. -/
theorem clearDisplayZeroesEveryByte : Obligations.ClearDisplayZeroesEveryByte := fun _ hready =>
  ⟨zeroMemory, exec_clearDisplay_of_ready hready, memRead_zeroMemory⟩

/-- Clearing the whole screen leaves the zero memory: each of the 1024 bytes is in the rectangle, and nothing else is
listed. -/
theorem memClear_fullScreen {m : Memory} (h : m.wf = true) : memClear m (areaIndices 0 0 128 8) = zeroMemory := by
  have hv : areaValid 0 0 128 8 = true := rfl
  refine memory_ext (wf_clearedArea h hv) wf_zeroMemory fun a => ?_
  rw [memRead_clearedArea h hv, memRead_zeroMemory]
  by_cases ha : a < 1024
  · exact if_pos (by omega)
  · rw [memRead_of_size_le h (Nat.le_of_not_lt ha), ite_self]

/-- Settles O22: outside READY both are refused alike, and in READY both leave the zero memory. -/
theorem clearDisplayIsTheFullClearArea : Obligations.ClearDisplayIsTheFullClearArea := by
  intro s hwf
  by_cases hready : s.session = .ready
  · refine ⟨_, exec_clearDisplay_of_ready hready, (exec_clearArea_of_valid hready rfl).trans ?_⟩
    exact congrArg (fun m => Host.Outcome.next (endedPlain .ok { s with fb := m })) (memClear_fullScreen hwf)
  · exact ⟨_, notReadyCompletesNotInitialized s _ hready rfl, notReadyCompletesNotInitialized s _ hready rfl⟩

/-! ## Drawing twice (R135, law 6) -/

theorem setBit_setBit (v : Byte) (b : Nat) (on : Bool) : setBit (setBit v b on) b on = setBit v b on := by
  cases on <;> simp [setBit, BitVec.or_assoc, BitVec.and_assoc]

theorem pixelMem_pixelMem {m : Memory} (h : m.wf = true) (x y : Nat) (on : Bool) :
    pixelMem (pixelMem m x y on) x y on = pixelMem m x y on := by
  have hw := wf_pixelMem h x y on
  refine memory_ext (wf_pixelMem hw x y on) hw fun a => ?_
  rw [memRead_pixelMem hw, memRead_pixelMem h]
  split
  · exact setBit_setBit _ _ _
  · rfl

theorem glyphMem_glyphMem (rom : Vector Glyph 95) {m : Memory} (h : m.wf = true) (c : Byte) (x : Nat) {p : Nat}
    (hp : p < PAGES) : glyphMem rom (glyphMem rom m c x p) c x p = glyphMem rom m c x p := by
  have hw := wf_glyphMem rom h c x hp
  refine memory_ext (wf_glyphMem rom hw c x hp) hw fun a => ?_
  obtain ⟨hcol, -⟩ := memRead_glyphMem rom h c x hp a
  obtain ⟨hcol', hother'⟩ := memRead_glyphMem rom hw c x hp a
  by_cases hk : ∃ k : Fin GLYPH_W, x + k.val < 128 ∧ a = columnIndex (x + k.val) p
  · obtain ⟨k, hlt, ha⟩ := hk
    rw [hcol' k hlt ha, hcol k hlt ha]
  · exact hother' fun k hlt ha => hk ⟨k, hlt, ha⟩

theorem memClear_memClear {m : Memory} (h : m.wf = true) {is : List Nat} (hi : ∀ i ∈ is, i < FB_SIZE) :
    memClear (memClear m is) is = memClear m is := by
  have hw := wf_memClear is h hi
  refine memory_ext (wf_memClear is hw hi) hw fun a => ?_
  rw [memRead_memClear is hw hi, memRead_memClear is h hi]
  split <;> rfl

/-- In READY the command replaces the framebuffer by `f` of the glyph ROM and it, and the session stays READY. -/
def DrawsAs (i : Instr) (f : Vector Glyph 95 → Memory → Memory) : Prop :=
  ∀ s : State, s.session = .ready →
    ∃ t, exec i s = .next t ∧ t.session = .ready ∧ t.glyphRom = s.glyphRom ∧ t.fb = f s.glyphRom s.fb

/-- A command that draws as an idempotent function is idempotent on the framebuffer; outside READY both runs are
refused. -/
theorem DrawsAs.idempotent {i : Instr} {f : Vector Glyph 95 → Memory → Memory} (h : DrawsAs i f)
    (hi : isInit i = false) {s : State} (hf : f s.glyphRom (f s.glyphRom s.fb) = f s.glyphRom s.fb) :
    ∃ t u, exec i s = .next t ∧ exec i t = .next u ∧ u.fb = t.fb := by
  by_cases hready : s.session = .ready
  · obtain ⟨t, het, hready', hrom, hfb⟩ := h s hready
    obtain ⟨u, heu, -, -, hfb'⟩ := h t hready'
    exact ⟨t, u, het, heu, by rw [hfb', hrom, hfb, hf]⟩
  · exact ⟨_, _, notReadyCompletesNotInitialized s i hready hi,
      notReadyCompletesNotInitialized (endedPlain .notInitialized s) i hready hi, rfl⟩

theorem drawsAs_setPixel (x y : Byte) (on : Bool) :
    DrawsAs (.setPixel x y on) fun _ m => pixelMem m x.toNat y.toNat on :=
  fun _ h => ⟨_, exec_setPixel_of_ready h x y on, h, rfl, rfl⟩

theorem drawsAs_drawChar_onScreen (c x : Byte) {pg : Byte} (hp : pg.toNat < 8) :
    DrawsAs (.drawChar c x pg) fun rom m => glyphMem rom m c x.toNat pg.toNat :=
  fun _ h => ⟨_, exec_drawChar_of_onScreen h c x hp, h, rfl, rfl⟩

theorem drawsAs_drawChar_offScreen (c x : Byte) {pg : Byte} (hp : 8 ≤ pg.toNat) :
    DrawsAs (.drawChar c x pg) fun _ m => m :=
  fun _ h => ⟨_, exec_drawChar_of_offScreen h c x hp, h, rfl, rfl⟩

theorem drawsAs_clearArea_valid {x pg wd ht : Byte} (hv : areaValid x.toNat pg.toNat wd.toNat ht.toNat = true) :
    DrawsAs (.clearArea x pg wd ht) fun _ m => memClear m (areaIndices x.toNat pg.toNat wd.toNat ht.toNat) :=
  fun _ h => ⟨_, exec_clearArea_of_valid h hv, h, rfl, rfl⟩

theorem drawsAs_clearArea_not_valid {x pg wd ht : Byte}
    (hv : ¬ areaValid x.toNat pg.toNat wd.toNat ht.toNat = true) : DrawsAs (.clearArea x pg wd ht) fun _ m => m :=
  fun _ h => ⟨_, exec_clearArea_of_not_valid h hv, h, rfl, rfl⟩

theorem drawsAs_clearDisplay : DrawsAs .clearDisplay fun _ _ => zeroMemory :=
  fun _ h => ⟨_, exec_clearDisplay_of_ready h, h, rfl, rfl⟩

/-- Settles O25: each command draws as an idempotent function; off the screen, and where it is rejected, as the
identity. -/
theorem drawingIsIdempotent : Obligations.DrawingIsIdempotent := by
  rintro s i hwf (⟨x, y, on, rfl⟩ | ⟨c, x, pg, rfl⟩ | ⟨x, pg, wd, ht, rfl⟩ | rfl)
  · exact (drawsAs_setPixel x y on).idempotent rfl (pixelMem_pixelMem hwf _ _ on)
  · rcases Nat.lt_or_ge pg.toNat 8 with hp | hp
    · exact (drawsAs_drawChar_onScreen c x hp).idempotent rfl (glyphMem_glyphMem s.glyphRom hwf c _ hp)
    · exact (drawsAs_drawChar_offScreen c x hp).idempotent rfl rfl
  · by_cases hv : areaValid x.toNat pg.toNat wd.toNat ht.toNat = true
    · exact (drawsAs_clearArea_valid hv).idempotent rfl (memClear_memClear hwf (areaIndices_lt hv))
    · exact (drawsAs_clearArea_not_valid hv).idempotent rfl rfl
  · exact drawsAs_clearDisplay.idempotent rfl rfl

end Sys2Proof.Machine
end

section
/-! PROOFS. The bus protocol (42_bus_protocol.md): what UPDATE_SCREEN and INIT_BORROWING leave where the transport's
answers stand in State, and what both INIT_* commands request under every answer. -/

namespace Sys2Proof.Machine

open Config Safety

/-! ## Command frames up to a failure (R170, R173) -/

/-- Command frames in a row, where the first failing answer is the one to frame `k`. -/
theorem sendCommands_of_getElem? {bs : List Byte} {k : Nat} {b : Byte} (hb : bs[k]? = some b) {hs : List Handle}
    {e : Word32} {rest : List Reply} {s : State} (hl : hs.length = k) (h : s.replies = hs.map .ok ++ .fail e :: rest) :
    sendCommands bs s =
      (some (commandFrameFailed b (s.seq + BitVec.ofNat 5 k) e),
        { s with seq := s.seq + BitVec.ofNat 5 k, replies := rest
                 trace := s.trace ++ ((bs.take k).map fun b => okIn s (commandFrame s s.devId b))
                   ++ [failIn s (commandFrame s s.devId b) e] }) := by
  obtain ⟨hk, rfl⟩ := List.getElem?_eq_some_iff.1 hb
  have hlen : (bs.take k).length = k := List.length_take_of_le hk.le
  have hsplit : bs.take k ++ bs[k] :: bs.drop (k + 1) = bs := by
    rw [List.getElem_cons_drop, List.take_append_drop]
  have hfail := sendCommands_fail_at (bs.take k) bs[k] (bs.drop (k + 1)) hs e rest s (hl.trans hlen.symm) h
  rwa [hsplit, hlen] at hfail

/-! ## UPDATE_SCREEN, frame by frame (R180 to R183) -/

theorem exec_updateScreen_of_ready {s : State} (h : s.session = .ready) :
    exec .updateScreen s = .next (updateScreen s) :=
  congrArg Host.Outcome.next (whenReady_of_ready h)

theorem updateScreen_of_sent {s t : State} (h : sendScreen s = (none, t)) :
    updateScreen s = complete { t with panelWinKnown := true } := by
  rw [updateScreen, h]

theorem updateScreen_of_not_sent {s t : State} {c : Completion} (h : sendScreen s = (some c, t)) :
    updateScreen s = finish c { t with panelWinKnown := false } := by
  rw [updateScreen, h]

/-- The session between the window frames and the data frame: six frames acknowledged, the answers `rest` to come. -/
def windowSent (s : State) (rest : List Reply) : State :=
  { s with seq := 6, replies := rest, trace := s.trace ++ ((screenFrames s).take 6).map (okIn s) }

/-- Where the six window frames are acknowledged, the data frame decides. -/
theorem sendScreen_of_window_ok {s : State} {hs : List Handle} {rest : List Reply} (hl : hs.length = 6)
    (h : s.replies = hs.map .ok ++ rest) : sendScreen s = sendData (fbBytes s.fb) (windowSent s rest) := by
  have hwindow : sendCommands (windowBytes s) { s with seq := 0 } = (none, windowSent s rest) :=
    sendCommands_all_ok (windowBytes s) hs rest { s with seq := 0 } hl h
  rw [sendScreen, hwindow]

/-- Where frame `k` of the window fails, it is the last one. -/
theorem sendScreen_of_window_fail {s : State} {k : Nat} {b : Byte} {hs : List Handle} {e : Word32} {rest : List Reply}
    (hl : hs.length = k) (hb : (window s)[k]? = some b) (h : s.replies = hs.map .ok ++ .fail e :: rest) :
    sendScreen s = (some (commandFrameFailed b (BitVec.ofNat 5 k) e),
      { s with
        seq := BitVec.ofNat 5 k, replies := rest
        trace := s.trace ++ ((screenFrames s).take k).map (okIn s) ++ [failIn s (commandFrame s s.devId b) e] }) := by
  have hk : k < 6 := (List.getElem?_eq_some_iff.1 hb).1
  have hwindow := sendCommands_of_getElem? (s := { s with seq := 0 }) hb hl h
  have hseq : (0 : BitVec 5) + BitVec.ofNat 5 k = BitVec.ofNat 5 k := BitVec.zero_add _
  simp only [hseq] at hwindow
  rw [sendScreen, windowBytes_eq_window, hwindow, take_screenFrames s hk.le, List.map_map]
  rfl

/-- The window frames and the data frame are all the frames of UPDATE_SCREEN. -/
theorem map_okIn_screenFrames (s : State) :
    (screenFrames s).map (okIn s) = ((screenFrames s).take 6).map (okIn s) ++ [okIn s (dataFrame s)] := rfl

/-- Settles O26: the data frame follows the window frames, and all seven are acknowledged. -/
theorem updateScreenSendsTheWholeFramebuffer : Obligations.UpdateScreenSendsTheWholeFramebuffer := by
  intro s hs rest hready hl h ha
  obtain rfl | ⟨ws, g, rfl⟩ := hs.eq_nil_or_concat
  · cases hl
  have hscreen := sendScreen_of_window_ok (s := s) (hs := ws) (rest := .ok g :: rest) (by simpa using hl)
    (by simpa using h)
  rw [sendData_ok_cons (fbBytes_isEmpty s.fb) (s := windowSent s (.ok g :: rest)) ha rfl] at hscreen
  rw [exec_updateScreen_of_ready hready, updateScreen_of_sent hscreen, map_okIn_screenFrames, ← List.append_assoc]
  rfl

/-- Settles O27: the failing window frame is the last one, and its completion is the command's. -/
theorem updateScreenReportsTheFailingCommandFrame : Obligations.UpdateScreenReportsTheFailingCommandFrame := by
  intro s k b hs e rest hready hl hb h
  rw [exec_updateScreen_of_ready hready, updateScreen_of_not_sent (sendScreen_of_window_fail hl hb h)]
  rfl

/-- Settles O28: after the window frames, the data frame is not assembled, or its transmission fails. -/
theorem updateScreenReportsTheFailingDataFrame : Obligations.UpdateScreenReportsTheFailingDataFrame := by
  intro s hs rest hready hl
  refine ⟨fun as hmay halloc h => ?_, fun e ha h => ?_⟩
  · have hscreen := sendScreen_of_window_ok hl h
    rw [sendData_noAlloc_cons (fbBytes_isEmpty s.fb) (s := windowSent s rest) hmay halloc] at hscreen
    rw [exec_updateScreen_of_ready hready, updateScreen_of_not_sent hscreen]
    rfl
  · have hscreen := sendScreen_of_window_ok hl h
    rw [sendData_fail_cons (fbBytes_isEmpty s.fb) (s := windowSent s (.fail e :: rest)) ha rfl] at hscreen
    rw [exec_updateScreen_of_ready hready, updateScreen_of_not_sent hscreen]
    rfl

/-! ## UPDATE_SCREEN under every answer (R184) -/

/-- However UPDATE_SCREEN ends, it ends a state that only its frames and the ghost bit changed. -/
theorem updateScreen_eq_finish (s : State) :
    ∃ c u known, SameButBus s u ∧ updateScreen s = finish c { u with panelWinKnown := known } := by
  obtain ⟨u, n, hsame, -, -, -, hend⟩ := updateScreen_cases s
  rcases hend with ⟨-, he⟩ | ⟨k, b, e, -, -, he⟩ | ⟨-, he⟩ | ⟨-, e, he⟩
  · exact ⟨completionOk, u, true, hsame, he⟩
  · exact ⟨commandFrameFailed b (BitVec.ofNat 5 k) e, u, false, hsame, he⟩
  · exact ⟨outOfMemory 6, u, false, hsame, he⟩
  · exact ⟨dataFrameFailed 6 e, u, false, hsame, he⟩

/-- Settles O30: outside READY only the completion fields change, and in READY the frames change what they take. -/
theorem updateScreenChangesNoControllerState : Obligations.UpdateScreenChangesNoControllerState := by
  intro s
  by_cases hready : s.session = .ready
  · obtain ⟨c, u, known, hsame, he⟩ := updateScreen_eq_finish s
    refine ⟨_, exec_updateScreen_of_ready hready, ?_⟩
    unfold SameButBus at hsame
    rw [he, hsame]
    rfl
  · exact ⟨_, congrArg Host.Outcome.next (whenReady_of_not_ready hready), rfl⟩

/-! ## INIT_BORROWING (R178, 43_session.md R213) -/

/-- The session INIT_BORROWING configures: the borrowed handle, and nothing owned. -/
def borrowed (h : Word32) (s : State) : State :=
  { s with session := .configuring, devId := h, busId := 0, owns := false }

theorem exec_initBorrowing_of_uninit {s : State} {h : Word32} (hs : s.session = .uninit) (h0 : h ≠ 0) :
    exec (.initBorrowing h) s = .next (configurePanel undoBorrowing (borrowed h s)) := by
  have hallowed : exec (.initBorrowing h) s = .next (initBorrowing h s) :=
    congrArg Host.Outcome.next (whenInitAllowed_of_uninit hs)
  rw [hallowed, initBorrowing, if_neg h0]
  rfl

/-- Settles O31: the panel is configured in the borrowed session. -/
theorem initBorrowingConfiguresThePanel : Obligations.InitBorrowingConfiguresThePanel := by
  intro s h hs rest huninit h0 hl hrep
  rw [exec_initBorrowing_of_uninit huninit h0, configurePanel_all_ok undoBorrowing (borrowed h s) hs rest hl hrep]
  rfl

/-- Settles O32: the configuration stops at the failing frame, and its undoing releases nothing. -/
theorem initBorrowingAbortsAtTheFailingFrame : Obligations.InitBorrowingAbortsAtTheFailingFrame := by
  intro s h k b hs e rest huninit h0 hl hb hrep
  rw [exec_initBorrowing_of_uninit huninit h0,
    configurePanel_fail_at undoBorrowing (borrowed h s) k b hs e rest hl hb hrep]
  rfl

/-! ## The requests of the INIT_* commands (R178, R179, 43_session.md R211 to R213) -/

/-- INIT_BORROWING requests the first frames, up to the one that ends it. -/
theorem InitBorrowingEnd.requests_eq {h : Word32} {s t : State} (hend : InitBorrowingEnd h s t) :
    ∃ n, requests t.trace = requests s.trace ++ (initFrames s h).take n ∧ endsAtFrame s n t := by
  cases hend with
  | ok new u _ htrace hnew _ ht =>
    subst ht
    refine ⟨26, ?_, endsAtFrame_ok s _⟩
    rw [List.take_of_length_le (length_initFrames s h).le, ← hnew, ← requests_append, ← htrace]
    rfl
  | fail k b e new u _ htrace hk hnew hb _ ht =>
    subst ht
    refine ⟨k + 1, ?_, endsAtFrame_failed hk hb e _⟩
    rw [← hnew, ← requests_append, ← htrace]
    rfl

/-- The frames of an initialisation create no bus and attach no device. -/
theorem no_handles_of_initFrames {s : State} {dev : Word32} {n : Nat} {new : List Transaction}
    (h : requests new = (initFrames s dev).take n) : busesCreated new = [] ∧ devicesAttached new = [] := by
  obtain ⟨hbuses, -, hdevices, -⟩ := no_resources_of_transmits (tr := new) fun r hr =>
    isTransmit_of_mem_initFrames (s := s) (dev := dev) (n := n) r (h ▸ hr)
  exact ⟨hbuses, hdevices⟩

/-- How INIT_OWNING's new requests `new` and its end `t` go together: no bus, no device on it, or the frames to the
device and, where one failed, the releases (43_session.md R211, R212). -/
def OwningRequests (scl sda : Byte) (s t : State) (new : List Transaction) : Prop :=
  (requests new = [.busCreate scl sda] ∧ t.kind = .busTransactionFailed ∧ t.errSrc = .busCreate) ∨
  (∃ bus, busesCreated new = [bus] ∧
    requests new = [.busCreate scl sda, .devAdd bus 0x3C s.params.busClkHz, .busDelete bus] ∧
    t.kind = .busTransactionFailed ∧ t.errSrc = .devAdd) ∨
  (∃ bus dev n, busesCreated new = [bus] ∧ devicesAttached new = [dev] ∧ endsAtFrame s n t ∧
    requests new = [.busCreate scl sda, .devAdd bus 0x3C s.params.busClkHz] ++ (initFrames s dev).take n ++
      (if t.kind = .ok then [] else [.devRemove dev, .busDelete bus]))

/-- INIT_OWNING requests what its four ends say. -/
theorem InitOwningEnd.owningRequests {scl sda : Byte} {s t : State} (hend : InitOwningEnd scl sda s t) :
    ∃ new, t.trace = s.trace ++ new ∧ OwningRequests scl sda s t new := by
  cases hend with
  | noBus e u _ htrace ht =>
    subst ht
    exact ⟨_, htrace, .inl ⟨rfl, rfl, rfl⟩⟩
  | noDev bus e a u _ htrace ht =>
    subst ht
    exact ⟨_, htrace, .inr (.inl ⟨bus, rfl, rfl, rfl, rfl⟩)⟩
  | ok bus dev new u _ _ _ htrace hnew _ ht =>
    subst ht
    have hall : requests new = (initFrames s dev).take 26 := by
      rw [List.take_of_length_le (length_initFrames s dev).le, hnew]
    obtain ⟨hbuses, hdevices⟩ := no_handles_of_initFrames hall
    rw [List.append_assoc] at htrace
    refine ⟨_, htrace, .inr (.inr ⟨bus, dev, 26, ?_, ?_, endsAtFrame_ok s _, ?_⟩)⟩
    · simp [busesCreated, hbuses]
    · simp [devicesAttached, hdevices]
    · simp [hall, endedPlain, ended]
  | undone bus dev k b e a1 a2 new u _ _ _ hk htrace hnew hb _ ht =>
    subst ht
    obtain ⟨hbuses, hdevices⟩ := no_handles_of_initFrames hnew
    simp only [List.append_assoc] at htrace
    refine ⟨_, htrace, .inr (.inr ⟨bus, dev, k + 1, ?_, ?_, endsAtFrame_failed hk hb e _, ?_⟩)⟩
    · simp [busesCreated, hbuses]
    · simp [devicesAttached, hdevices]
    · simp [hnew, endedCommandFrame, ended]

/-- Settles O37: the requests of each way either command can end. -/
theorem initFramesAreNeverReordered : Obligations.InitFramesAreNeverReordered := by
  refine ⟨fun s h huninit h0 => ?_, fun s scl sda huninit => ?_⟩
  · obtain ⟨n, hrequests, hends⟩ := (initBorrowing_end h s).requests_eq
    exact ⟨_, n, exec_initBorrowing_of_uninit huninit h0, hrequests, hends⟩
  · obtain ⟨new, htrace, hrequests⟩ := (initOwning_end scl sda s).owningRequests
    exact ⟨_, new, congrArg Host.Outcome.next (whenInitAllowed_of_uninit huninit), htrace, hrequests⟩

end Sys2Proof.Machine
end

section
/-! PROOFS. The session commands (43_session.md): what INIT_OWNING and DEINIT leave where the transport's answers stand
in State, what a refused INIT_* leaves, and how session, ownership and resources follow every command. -/

namespace Sys2Proof.Machine

open Config Safety

/-! ## INIT_OWNING, request by request (R211, R212) -/

theorem exec_initOwning_of_uninit {s : State} (hs : s.session = .uninit) (scl sda : Byte) :
    exec (.initOwning scl sda) s = .next (initOwning scl sda s) :=
  congrArg Host.Outcome.next (whenInitAllowed_of_uninit hs)

/-- The session INIT_OWNING goes on with once BusCreate gave `bus`, the answers `rest` to come. -/
def withBus (scl sda : Byte) (bus : Handle) (rest : List Reply) (s : State) : State :=
  { s with
    session := .configuring, busId := bus.val, replies := rest
    trace := s.trace ++ [⟨.busCreate scl sda, .handle bus.val, statusWord { s with session := .configuring }⟩] }

/-- The session INIT_OWNING configures: it owns `bus` and `dev`, the answers `rest` to come. -/
def attached (scl sda : Byte) (bus dev : Handle) (rest : List Reply) (s : State) : State :=
  { s with
    session := .configuring, owns := true, devId := dev.val, busId := bus.val, replies := rest
    trace := s.trace ++
      [⟨.busCreate scl sda, .handle bus.val, statusWord { s with session := .configuring }⟩,
        ⟨.devAdd bus.val 0x3C s.params.busClkHz, .handle dev.val, statusWord { s with session := .configuring }⟩] }

/-- Where BusCreate fails, INIT_OWNING ends there. -/
theorem initOwning_of_busCreate_fail {s : State} {e : Word32} {rest : List Reply} (h : s.replies = .fail e :: rest)
    (scl sda : Byte) :
    initOwning scl sda s = endedResource .busCreate e
      { s with
        session := .uninit, replies := rest
        trace := s.trace ++ [failIn { s with session := .configuring } (.busCreate scl sda) e] } := by
  rw [initOwning, requestHandle_cons (s := { s with session := .configuring }) h]
  rfl

theorem initOwning_of_busCreate_ok {s : State} {bus : Handle} {rest : List Reply} (h : s.replies = .ok bus :: rest)
    (scl sda : Byte) : initOwning scl sda s = attachDevice (withBus scl sda bus rest s) := by
  rw [initOwning, requestHandle_cons (s := { s with session := .configuring }) h]
  rfl

/-- Where DevAdd fails, the bus is deleted, whatever that answers, and the failure of DevAdd is reported. -/
theorem attachDevice_of_devAdd_fail {s : State} {e : Word32} {r : Reply} {rest : List Reply}
    (h : s.replies = .fail e :: r :: rest) :
    attachDevice s = endedResource .devAdd e
      { s with
        session := .uninit, busId := 0, replies := rest
        trace := s.trace ++
          [failIn s (.devAdd s.busId 0x3C s.params.busClkHz) e, answeredIn s (.busDelete s.busId) r] } := by
  rw [attachDevice, requestHandle_cons h]
  simp only [replyHandle]
  rw [requestAck_cons (a := r) (rs := rest)]
  case h => rfl
  rw [List.append_assoc]
  cases r <;> rfl

/-- Where both handles are given, the panel is configured in the owning session. -/
theorem initOwning_of_attached {s : State} {bus dev : Handle} {rest : List Reply}
    (h : s.replies = .ok bus :: .ok dev :: rest) (scl sda : Byte) :
    initOwning scl sda s = configurePanel undoOwning (attached scl sda bus dev rest s) := by
  rw [initOwning_of_busCreate_ok h, attachDevice, requestHandle_cons (a := .ok dev) (rs := rest)]
  case h => rfl
  simp only [replyHandle, withBus, List.append_assoc]
  rfl

/-- Settles O34: the panel is configured in the owning session. -/
theorem initOwningConfiguresThePanel : Obligations.InitOwningConfiguresThePanel := by
  intro s scl sda bus dev hs rest huninit hl h
  rw [exec_initOwning_of_uninit huninit, initOwning_of_attached h,
    configurePanel_all_ok undoOwning (attached scl sda bus dev (hs.map Reply.ok ++ rest) s) hs rest hl rfl]
  rfl

/-- Settles O35: the two early failures. The session is UNINIT again, as it was. -/
theorem initOwningRollsBackTheBus : Obligations.InitOwningRollsBackTheBus := by
  intro s scl sda e rest huninit
  refine ⟨fun h => ?_, fun bus r h => ?_⟩
  · rw [exec_initOwning_of_uninit huninit, initOwning_of_busCreate_fail h, ← huninit]
  · have hdev := attachDevice_of_devAdd_fail (s := withBus scl sda bus (.fail e :: r :: rest) s) rfl
    rw [exec_initOwning_of_uninit huninit, initOwning_of_busCreate_ok h, hdev, ← huninit]
    simp only [withBus, List.append_assoc]
    rfl

/-- Settles O36: the configuration stops at the failing frame, and its undoing releases device and bus. -/
theorem initOwningRollsBackDeviceAndBus : Obligations.InitOwningRollsBackDeviceAndBus := by
  intro s scl sda bus dev k b hs e r1 r2 rest huninit hl hb h
  rw [exec_initOwning_of_uninit huninit, initOwning_of_attached h,
    configurePanel_fail_at undoOwning (attached scl sda bus dev (hs.map Reply.ok ++ .fail e :: r1 :: r2 :: rest) s) k b
      hs e (r1 :: r2 :: rest) hl hb rfl,
    undoOwning_cons rfl]
  simp only [attached, List.append_assoc]
  rfl

/-! ## Refused INIT_* commands (R213, R216, R217) -/

/-- Both INIT_* commands run behind the check of the session. -/
theorem after_eq_whenInitAllowed {i : Instr} (hi : isInit i = true) : ∃ f, after i = whenInitAllowed f := by
  cases i with
  | initOwning scl sda => exact ⟨_, rfl⟩
  | initBorrowing h => exact ⟨_, rfl⟩
  | _ => cases hi

/-- Settles O33: an absent handle is refused where the session allows the command. -/
theorem initBorrowingRejectsAnAbsentHandle : Obligations.InitBorrowingRejectsAnAbsentHandle := by
  intro s huninit
  rw [exec_eq_after, after, whenInitAllowed_of_uninit huninit, initBorrowing, if_pos rfl, finish_notInitialized_eq]

/-- Settles O38: the check of the session refuses both commands in READY. -/
theorem initInReadyIsIllegal : Obligations.InitInReadyIsIllegal := by
  intro s i hready hi
  obtain ⟨f, hf⟩ := after_eq_whenInitAllowed hi
  rw [exec_eq_after, hf, whenInitAllowed_of_ready hready, finish_illegalCommand_eq]

/-- In CLOSED the checks of the session refuse every command. -/
theorem after_of_closed (i : Instr) {s : State} (hs : s.session = .closed) :
    after i s = endedPlain .notInitialized s := by
  cases hi : isInit i with
  | true =>
    obtain ⟨f, hf⟩ := after_eq_whenInitAllowed hi
    rw [hf, whenInitAllowed_of_closed hs, finish_notInitialized_eq]
  | false => rw [after_not_ready hi (by simp [hs]), finish_notInitialized_eq]

/-- Settles O39: the port gives the word, which is refused where it decodes and illegal where it does not. -/
theorem closedIsTerminal : Obligations.ClosedIsTerminal := by
  intro s b bs ms c hclosed hidle hhost hfetch
  rw [step_send (List.cons_ne_nil b bs) hhost, runCommand_of_fetch ms hidle hfetch]
  cases decodeWord c.word c.payload with
  | ok i => exact congrArg Host.Outcome.next (after_of_closed i (s := accept c ms s) hclosed)
  | error _ => rfl

/-! ## DEINIT (R214, R218 to R221) -/

theorem SameButBus.owns_eq {s t : State} (h : SameButBus s t) : t.owns = s.owns := by
  obtain ⟨-, howns, -⟩ := h.session_fields
  exact howns

theorem exec_deinit_of_ready {s : State} (hs : s.session = .ready) : exec .deinit s = .next (deinit s) :=
  congrArg Host.Outcome.next (whenReady_of_ready hs)

/-- Settles O40: both answers stand in State, and the first failure among them is reported. -/
theorem deinitReleasesWhatItOwns : Obligations.DeinitReleasesWhatItOwns := by
  intro s r1 r2 rest hready howns h
  rw [exec_deinit_of_ready hready, deinit, if_pos howns]
  simp only [requestAck_cons h]
  rw [requestAck_cons (a := r2) (rs := rest)]
  case h => rfl
  rw [List.append_assoc]
  cases r1 <;> cases r2 <;> rfl

/-- Settles O41: a borrowed session is only closed. -/
theorem deinitOfABorrowedSessionReleasesNothing : Obligations.DeinitOfABorrowedSessionReleasesNothing := by
  intro s hready hborrowed
  rw [exec_deinit_of_ready hready, deinit_borrowed hborrowed]
  rfl

/-- Settles O42: whatever the answers, the two releases are the requests, and closing keeps `OWNS`. -/
theorem owningTeardownAlwaysReleasesBoth : Obligations.OwningTeardownAlwaysReleasesBoth := by
  intro s hready howns
  obtain ⟨c, w, a, b, hsame, htrace, -, hdeinit⟩ := deinit_owning_cases howns
  refine ⟨_, exec_deinit_of_ready hready, ?_⟩
  rw [hdeinit]
  refine ⟨rfl, hsame.owns_eq.trans howns, ?_⟩
  have hrequests := congrArg requests htrace
  rwa [requests_append] at hrequests

/-! ## The session after every command (R215) -/

/-- A command that does not complete OK keeps the session, unless it is a DEINIT of a READY session. -/
theorem sessionAfter_of_not_ok {before : Session} {i : Instr} {k : Kind} (hk : k ≠ .ok)
    (hi : before = .ready → i ≠ .deinit) : sessionAfter before i k = before := by
  cases before with
  | uninit => simp [sessionAfter, hk]
  | configuring => rfl
  | ready => simp [sessionAfter, hi rfl]
  | closed => rfl

theorem sessionAfter_ready {i : Instr} (hi : i ≠ .deinit) (k : Kind) : sessionAfter .ready i k = .ready := by
  simp [sessionAfter, hi]

/-- An INIT_* leads from UNINIT to READY where it completes OK. -/
theorem sessionAfter_init {i : Instr} (hi : isInit i = true) (k : Kind) :
    sessionAfter .uninit i k = if k = .ok then .ready else .uninit := by
  simp [sessionAfter, hi]

/-- INIT_BORROWING ends READY where it completes OK, and UNINIT otherwise. -/
theorem InitBorrowingEnd.session_eq {h : Word32} {s t : State} (hend : InitBorrowingEnd h s t) :
    t.session = if t.kind = .ok then .ready else .uninit := by
  cases hend with
  | ok _ _ _ _ _ _ ht => subst ht; rfl
  | fail _ _ _ _ _ _ _ _ _ _ _ ht => subst ht; rfl

/-- INIT_OWNING ends READY where it completes OK, and UNINIT otherwise. -/
theorem InitOwningEnd.session_eq {scl sda : Byte} {s t : State} (hend : InitOwningEnd scl sda s t) :
    t.session = if t.kind = .ok then .ready else .uninit := by
  cases hend with
  | noBus _ _ _ _ ht => subst ht; rfl
  | noDev _ _ _ _ _ _ ht => subst ht; rfl
  | ok _ _ _ _ _ _ _ _ _ _ ht => subst ht; rfl
  | undone _ _ _ _ _ _ _ _ _ _ _ _ _ _ _ _ _ ht => subst ht; rfl

/-- Every command leaves the session the transition table gives. -/
theorem CommandEnd.session_eq {i : Instr} {s t : State} (h : CommandEnd i s t) (hc : s.session ≠ .configuring) :
    t.session = sessionAfter s.session i t.kind := by
  cases h with
  | refused k hk _ ht hdeinit =>
    have hne : k ≠ .ok := by rcases hk with rfl | rfl | rfl <;> decide
    subst ht
    exact (sessionAfter_of_not_ok hne hdeinit).symm
  | fb u hr hi ht hu =>
    have hne : i ≠ .deinit := by rintro rfl; cases hi
    subst ht
    rw [hr, sessionAfter_ready hne, ← hr, hu]
    rfl
  | upd u _ _ _ _ _ _ _ hr hi hsame _ _ _ _ _ _ ht =>
    obtain ⟨hsession, -⟩ := hsame.session_fields
    subst hi ht
    rw [hr, sessionAfter_ready (i := .updateScreen) nofun]
    exact hsession.trans hr
  | deinitOwning _ _ _ _ hr hi _ _ _ _ ht => subst hi ht; rw [hr]; rfl
  | deinitBorrowed hr hi _ ht => subst hi ht; rw [hr]; rfl
  | borrow _ hs hi _ hb => subst hi; rw [hb.session_eq, hs.resolve_right hc, sessionAfter_init rfl]
  | own _ _ hs hi ho => subst hi; rw [ho.session_eq, hs.resolve_right hc, sessionAfter_init rfl]

/-- Settles O43: by the ways a command can end. -/
theorem sessionFollowsItsTransitions : Obligations.SessionFollowsItsTransitions := fun s i hc =>
  ⟨after i s, exec_eq_after i s, (after_commandEnd i s).session_eq hc⟩

/-! ## The ownership flag (R218) -/

/-- No command but the INIT_* writes `OWNS`. -/
theorem CommandEnd.owns_eq {i : Instr} {s t : State} (h : CommandEnd i s t) (hi : isInit i = false) :
    t.owns = s.owns := by
  cases h with
  | refused _ _ _ ht => subst ht; rfl
  | fb _ _ _ ht hu => subst ht; rw [hu]; rfl
  | upd _ _ _ _ _ _ _ _ _ _ hsame _ _ _ _ _ _ ht => subst ht; exact hsame.owns_eq
  | deinitOwning _ _ _ _ _ _ _ hsame _ _ ht => subst ht; exact hsame.owns_eq
  | deinitBorrowed _ _ _ ht => subst ht; rfl
  | borrow _ _ hb => subst hb; cases hi
  | own _ _ _ ho => subst ho; cases hi

/-- Settles O48: by the ways a command can end. -/
theorem ownershipIsSetOnlyByInit : Obligations.OwnershipIsSetOnlyByInit := fun s i hi =>
  ⟨after i s, exec_eq_after i s, (after_commandEnd i s).owns_eq hi⟩

/-! ## The framebuffer after an INIT_* (R211, R213) -/

/-- An INIT_* zeroes the framebuffer where it requested a frame, and leaves it as it was otherwise. -/
theorem CommandEnd.fb_of_init {i : Instr} {s t : State} (h : CommandEnd i s t) (hi : isInit i = true) :
    ∃ new, t.trace = s.trace ++ new ∧ t.fb = if (requests new).any isTransmit then [] else s.fb := by
  cases h with
  | refused _ _ _ ht => subst ht; exact ⟨[], (List.append_nil _).symm, rfl⟩
  | fb _ _ hfb => rw [isInit_of_isFramebuffer hfb] at hi; cases hi
  | upd _ _ _ _ _ _ _ _ _ hu => subst hu; cases hi
  | deinitOwning _ _ _ _ _ hd => subst hd; cases hi
  | deinitBorrowed _ hd => subst hd; cases hi
  | borrow _ _ _ _ hb =>
    cases hb with
    | ok new _ hsame htr hreq _ ht =>
      subst ht
      exact ⟨new, htr, by rw [hreq, any_isTransmit_all_initFrames]; exact hsame.fb_eq⟩
    | fail k _ _ new _ hsame htr _ hreq _ _ ht =>
      subst ht
      exact ⟨new, htr, by rw [hreq, any_isTransmit_initFrames]; exact hsame.fb_eq⟩
  | own _ _ _ _ ho =>
    cases ho with
    | noBus _ _ hsame htr ht => subst ht; exact ⟨_, htr, hsame.fb_eq⟩
    | noDev _ _ _ _ hsame htr ht => subst ht; exact ⟨_, htr, hsame.fb_eq⟩
    | ok _ _ new _ _ _ hsame htr hreq _ ht =>
      subst ht
      refine ⟨_, htr.trans (List.append_assoc ..), hsame.fb_eq.trans (if_pos ?_).symm⟩
      simp [hreq, any_isTransmit_all_initFrames]
    | undone _ _ k _ _ _ _ new _ _ _ hsame _ htr hreq _ _ ht =>
      subst ht
      refine ⟨_, htr.trans (by simp only [List.append_assoc]; rfl), hsame.fb_eq.trans (if_pos ?_).symm⟩
      simp [hreq, any_isTransmit_initFrames]

/-- Settles O46: the session follows its transitions, the handles fit it, and the framebuffer follows the requests. -/
theorem failedInitLeavesNothingBehind : Obligations.FailedInitLeavesNothingBehind := by
  intro s i huninit hdev hbus howns hi
  obtain ⟨new, htrace, hfb⟩ := (after_commandEnd i s).fb_of_init hi
  refine ⟨after i s, new, exec_eq_after i s, htrace, fun hfailed => ?_⟩
  have hsession : (after i s).session = .uninit := by
    rw [(after_commandEnd i s).session_eq (by simp [huninit]), huninit]
    exact sessionAfter_of_not_ok hfailed nofun
  have hfits := sessionFits_after i ((sessionFits_of_uninit huninit).2 ⟨hdev, hbus, howns⟩)
  obtain ⟨hdev', hbus', howns'⟩ := (sessionFits_of_uninit hsession).1 hfits
  exact ⟨hsession, hdev', hbus', howns', hfb⟩

/-! ## Resources (R212, R219, R220) -/

theorem owned_of_owning {s : State} (hs : s.session = .ready) (ho : s.owns = true) :
    ownedBus s = [s.busId] ∧ ownedDevice s = [s.devId] := ⟨if_pos ⟨hs, ho⟩, if_pos ⟨hs, ho⟩⟩

theorem owned_of_not_ready {s : State} (hs : s.session ≠ .ready) : ownedBus s = [] ∧ ownedDevice s = [] :=
  ⟨if_neg fun h => hs h.1, if_neg fun h => hs h.1⟩

theorem owned_of_borrowed {s : State} (ho : s.owns = false) : ownedBus s = [] ∧ ownedDevice s = [] := by
  simp [ownedBus, ownedDevice, ho]

/-- What a session owns is read off four fields. -/
theorem owned_congr {s t : State}
    (h : t.session = s.session ∧ t.owns = s.owns ∧ t.devId = s.devId ∧ t.busId = s.busId) :
    ownedBus t = ownedBus s ∧ ownedDevice t = ownedDevice s := by
  obtain ⟨hsession, howns, hdev, hbus⟩ := h
  simp only [ownedBus, ownedDevice, hsession, howns, hdev, hbus, and_self]

/-- A command from `s` to `t` with the transactions `new` balances: what it created, with what was owned before, is
what it released, with what is owned after. -/
def Balanced (s t : State) (new : List Transaction) : Prop :=
  busesCreated new ++ ownedBus s = busesDeleted new ++ ownedBus t ∧
  devicesAttached new ++ ownedDevice s = devicesRemoved new ++ ownedDevice t

/-- The balance, from what the two sessions own. -/
theorem balanced_of_owned {s t : State} {new : List Transaction} {bs ds bs' ds' : List Word32}
    (hs : ownedBus s = bs ∧ ownedDevice s = ds) (ht : ownedBus t = bs' ∧ ownedDevice t = ds')
    (hbuses : busesCreated new ++ bs = busesDeleted new ++ bs')
    (hdevices : devicesAttached new ++ ds = devicesRemoved new ++ ds') : Balanced s t new := by
  obtain ⟨rfl, rfl⟩ := hs
  obtain ⟨rfl, rfl⟩ := ht
  exact ⟨hbuses, hdevices⟩

/-- Frames alone balance where what is owned stays. -/
theorem balanced_of_transmits {s t : State} {new : List Transaction}
    (hnew : ∀ r ∈ requests new, isTransmit r = true)
    (ht : ownedBus t = ownedBus s ∧ ownedDevice t = ownedDevice s) : Balanced s t new := by
  obtain ⟨hbc, hbd, hda, hdr⟩ := no_resources_of_transmits hnew
  exact balanced_of_owned ⟨rfl, rfl⟩ ht (by rw [hbc, hbd]) (by rw [hda, hdr])

/-- A command without a request balances where what is owned stays. -/
theorem balanced_of_no_request {s t : State} (ht : ownedBus t = ownedBus s ∧ ownedDevice t = ownedDevice s) :
    Balanced s t [] := balanced_of_transmits nofun ht

theorem isTransmit_of_mem_all_initFrames {s : State} {dev : Word32} :
    ∀ r ∈ initFrames s dev, isTransmit r = true := by
  intro r hr
  obtain ⟨b, -, rfl⟩ := List.mem_map.1 hr
  rfl

/-- INIT_BORROWING makes no request but frames, whatever the end. -/
theorem InitBorrowingEnd.transmits {h : Word32} {s t : State} (hend : InitBorrowingEnd h s t) :
    ∃ new, t.trace = s.trace ++ new ∧ ∀ r ∈ requests new, isTransmit r = true := by
  cases hend with
  | ok new _ _ htr hreq _ ht => subst ht; exact ⟨new, htr, hreq ▸ isTransmit_of_mem_all_initFrames⟩
  | fail _ _ _ new _ _ htr _ hreq _ _ ht => subst ht; exact ⟨new, htr, hreq ▸ isTransmit_of_mem_initFrames⟩

/-- INIT_BORROWING leaves a session that owns nothing, whatever the end. -/
theorem InitBorrowingEnd.owns_nothing {h : Word32} {s t : State} (hend : InitBorrowingEnd h s t) :
    ownedBus t = [] ∧ ownedDevice t = [] := by
  cases hend with
  | ok _ _ hsame _ _ _ ht => subst ht; exact owned_of_borrowed hsame.owns_eq
  | fail _ _ _ _ _ _ _ _ _ _ _ ht => subst ht; exact owned_of_not_ready nofun

/-- INIT_OWNING ends with both resources owned, or with every one it created released. -/
theorem InitOwningEnd.balanced {scl sda : Byte} {s t : State} (hend : InitOwningEnd scl sda s t)
    (hs : ownedBus s = [] ∧ ownedDevice s = []) : ∃ new, t.trace = s.trace ++ new ∧ Balanced s t new := by
  cases hend with
  | noBus _ _ _ htr ht => subst ht; exact ⟨_, htr, balanced_of_owned hs (owned_of_not_ready nofun) rfl rfl⟩
  | noDev _ _ _ _ _ htr ht => subst ht; exact ⟨_, htr, balanced_of_owned hs (owned_of_not_ready nofun) rfl rfl⟩
  | ok bus dev new u _ _ hsame htr hreq _ ht =>
    obtain ⟨-, howns, hdev, hbus⟩ := hsame.session_fields
    obtain ⟨hbc, hbd, hda, hdr⟩ := no_resources_of_transmits (hreq ▸ isTransmit_of_mem_all_initFrames)
    subst ht
    refine ⟨_, htr.trans (List.append_assoc ..),
      balanced_of_owned (bs' := [u.busId]) (ds' := [u.devId]) hs (owned_of_owning rfl howns) ?_ ?_⟩
    · simp [busesCreated, busesDeleted, hbc, hbd, hbus]
    · simp [devicesAttached, devicesRemoved, hda, hdr, hdev]
  | undone _ _ _ _ _ _ _ new _ _ _ _ _ htr hreq _ _ ht =>
    obtain ⟨hbc, hbd, hda, hdr⟩ := no_resources_of_transmits (hreq ▸ isTransmit_of_mem_initFrames)
    subst ht
    refine ⟨_, htr.trans (by simp only [List.append_assoc]; rfl),
      balanced_of_owned hs (owned_of_not_ready nofun) ?_ ?_⟩
    · simp [busesCreated, busesDeleted, hbc, hbd]
    · simp [devicesAttached, devicesRemoved, hda, hdr]

/-- Where an INIT_* is let through, nothing is owned. -/
theorem owned_of_open {s : State} (hs : s.session = .uninit ∨ s.session = .configuring) :
    ownedBus s = [] ∧ ownedDevice s = [] :=
  owned_of_not_ready (by rcases hs with h | h <;> simp [h])

/-- Every command balances. -/
theorem CommandEnd.balanced {i : Instr} {s t : State} (h : CommandEnd i s t) :
    ∃ new, t.trace = s.trace ++ new ∧ Balanced s t new := by
  cases h with
  | refused _ _ _ ht =>
    subst ht
    exact ⟨[], (List.append_nil _).symm, balanced_of_no_request (owned_congr ⟨rfl, rfl, rfl, rfl⟩)⟩
  | fb _ _ _ ht hu =>
    subst ht
    rw [hu]
    exact ⟨[], (List.append_nil _).symm, balanced_of_no_request (owned_congr ⟨rfl, rfl, rfl, rfl⟩)⟩
  | upd _ _ new _ _ _ _ _ _ _ hsame htr hreq _ _ _ _ ht =>
    subst ht
    have hframes : ∀ r ∈ requests new, isTransmit r = true := hreq ▸ isTransmit_of_mem_screenFrames
    exact ⟨new, htr, balanced_of_transmits hframes (owned_congr hsame.session_fields)⟩
  | deinitOwning _ _ _ _ hr _ ho _ htr _ ht =>
    subst ht
    exact ⟨_, htr, balanced_of_owned (owned_of_owning hr ho) (owned_of_not_ready nofun) rfl rfl⟩
  | deinitBorrowed _ _ ho ht =>
    subst ht
    exact ⟨[], (List.append_nil _).symm,
      balanced_of_owned (owned_of_borrowed ho) (owned_of_not_ready nofun) rfl rfl⟩
  | borrow _ hs _ _ hb =>
    obtain ⟨hbus, hdev⟩ := owned_of_open hs
    obtain ⟨hbus', hdev'⟩ := hb.owns_nothing
    obtain ⟨new, htr, hnew⟩ := hb.transmits
    exact ⟨new, htr, balanced_of_transmits hnew ⟨hbus'.trans hbus.symm, hdev'.trans hdev.symm⟩⟩
  | own _ _ hs _ ho => exact ho.balanced (owned_of_open hs)

/-- Settles O50: the balance of every command. -/
theorem resourcesAreReleasedExactlyOnce : Obligations.ResourcesAreReleasedExactlyOnce := fun s i =>
  have ⟨new, htrace, hbuses, hdevices⟩ := (after_commandEnd i s).balanced
  ⟨after i s, new, exec_eq_after i s, htrace, hbuses, hdevices⟩

end Sys2Proof.Machine
end

section
/-! PROOFS. How a command is refused (60_exceptions.md R243, R244) and how the host's broken duties stop the machine
(R267; log 12). -/

namespace Sys2Proof.Machine

open Safety

/-! ## The host's duties (60_exceptions.md R267) -/

theorem runCommand_of_busy {s : State} (bs : List Byte) (ms : List HostMove) (hb : s.busy = true) :
    runCommand bs ms s = .fault .commandWhileBusy :=
  if_pos hb

/-- Settles O8: each broken duty stops the running of the command the host sends. -/
theorem brokenHostDutyStops : Obligations.BrokenHostDutyStops := by
  intro s b bs ms hhost
  have hstep : step s = runCommand (b :: bs) ms s := step_send (List.cons_ne_nil b bs) hhost
  exact ⟨fun hbusy => hstep.trans (runCommand_of_busy _ ms hbusy),
    fun hidle hfetch => hstep.trans (runCommand_of_incomplete ms hidle hfetch)⟩

/-! ## Refusals (60_exceptions.md R244) -/

/-- The codes of a command that is refused before it begins (R244). -/
def isRefusal : Kind → Bool
  | .notInitialized | .invalidArgument | .illegalCommand => true
  | .ok | .outOfMemory | .busTransactionFailed => false

theorem isRefusal_iff {k : Kind} :
    isRefusal k = true ↔ k = .notInitialized ∨ k = .invalidArgument ∨ k = .illegalCommand := by
  cases k <;> simp [isRefusal]

/-- An INIT_BORROWING that was let through with a handle is not refused. -/
theorem InitBorrowingEnd.not_refusal {h : Word32} {s t : State} (hend : InitBorrowingEnd h s t) :
    isRefusal t.kind = false := by
  cases hend with
  | ok _ _ _ _ _ _ ht => subst ht; rfl
  | fail _ _ _ _ _ _ _ _ _ _ _ ht => subst ht; rfl

/-- An INIT_OWNING that was let through is not refused. -/
theorem InitOwningEnd.not_refusal {scl sda : Byte} {s t : State} (hend : InitOwningEnd scl sda s t) :
    isRefusal t.kind = false := by
  cases hend with
  | noBus _ _ _ _ ht => subst ht; rfl
  | noDev _ _ _ _ _ _ ht => subst ht; rfl
  | ok _ _ _ _ _ _ _ _ _ _ ht => subst ht; rfl
  | undone _ _ _ _ _ _ _ _ _ _ _ _ _ _ _ _ _ ht => subst ht; rfl

/-- A command is refused with only the completion fields rewritten, or it does not end with a refusal's code. -/
theorem CommandEnd.refused_or_not_refusal {i : Instr} {s t : State} (h : CommandEnd i s t) :
    t = endedPlain t.kind s ∨ isRefusal t.kind = false := by
  cases h with
  | refused _ _ _ ht => subst ht; exact .inl rfl
  | fb _ _ _ ht => subst ht; exact .inr rfl
  | upd _ _ _ _ _ _ _ _ _ _ _ _ _ _ _ _ hend ht =>
    subst ht
    rcases hend with ⟨rfl, -⟩ | ⟨rfl, -⟩ | ⟨rfl, -⟩ <;> exact .inr rfl
  | deinitOwning _ _ _ _ _ _ _ _ _ hc ht =>
    subst ht
    rcases hc with rfl | ⟨e, rfl | rfl⟩ <;> exact .inr rfl
  | deinitBorrowed _ _ _ ht => subst ht; exact .inr rfl
  | borrow _ _ _ _ hb => exact .inr hb.not_refusal
  | own _ _ _ _ ho => exact .inr ho.not_refusal

/-- Settles O45: by the ways a command can end, only a refusal ends with one of the three codes. -/
theorem refusedCommandChangesNothing : Obligations.RefusedCommandChangesNothing := fun s i =>
  ⟨after i s, exec_eq_after i s, fun hkind =>
    (after_commandEnd i s).refused_or_not_refusal.resolve_right (by simp [isRefusal_iff.mpr hkind])⟩

end Sys2Proof.Machine
end

section
/-! PROOFS. How many requests a command makes (70_reset_and_hazards.md R282), and what block reset leaves, between
commands (R270) and in the middle of one (R271). -/

namespace Sys2Proof.Machine

open Safety

/-! ## The number of requests (R282) -/

/-- At most `n` transactions with the requests that a list begins with. -/
theorem length_le_of_requests_take {new : List Transaction} {l : List Request} {n : Nat}
    (h : requests new = l.take n) : new.length ≤ n :=
  (length_of_requests h).le.trans (List.length_take_le n l)

/-- INIT_BORROWING makes at most the 26 requests of the initialisation sequence. -/
theorem InitBorrowingEnd.requests_length_le {h : Word32} {s t : State} (hend : InitBorrowingEnd h s t) :
    ∃ new, t.trace = s.trace ++ new ∧ new.length ≤ 26 := by
  cases hend with
  | ok new _ _ htrace hnew _ ht =>
    subst ht
    exact ⟨new, htrace, ((length_of_requests hnew).trans (length_initFrames s h)).le⟩
  | fail _ _ _ new _ _ htrace hk hnew _ _ ht =>
    subst ht
    exact ⟨new, htrace, (length_le_of_requests_take hnew).trans hk⟩

/-- INIT_OWNING makes at most 30 requests: two for its resources, the 26 frames, and two releases. -/
theorem OwningRequests.length_le {scl sda : Byte} {s t : State} {new : List Transaction}
    (h : OwningRequests scl sda s t new) : new.length ≤ 30 := by
  rcases h with ⟨hnew, -⟩ | ⟨bus, -, hnew, -⟩ | ⟨bus, dev, n, -, -, -, hnew⟩
  · exact (length_of_requests hnew).le.trans (by simp)
  · exact (length_of_requests hnew).le.trans (by simp)
  · have hframes : ((initFrames s dev).take n).length ≤ 26 :=
      (List.length_take_le' n _).trans (length_initFrames s dev).le
    rw [length_of_requests hnew]
    split <;> simp only [List.length_append, List.length_cons, List.length_nil] <;> omega

/-- Every command makes at most 30 requests; only INIT_OWNING can make more than 26. -/
theorem CommandEnd.requests_length_le {i : Instr} {s t : State} (h : CommandEnd i s t) :
    ∃ new, t.trace = s.trace ++ new ∧ new.length ≤ 30 := by
  cases h with
  | refused _ _ _ ht => subst ht; exact ⟨[], (List.append_nil _).symm, Nat.zero_le _⟩
  | fb _ _ _ ht hu => subst ht; rw [hu]; exact ⟨[], (List.append_nil _).symm, Nat.zero_le _⟩
  | upd _ n new _ _ _ _ _ _ _ _ htrace hnew _ _ hn _ ht =>
    subst ht
    exact ⟨new, htrace, (length_le_of_requests_take hnew).trans (hn.trans (by decide))⟩
  | deinitOwning _ _ _ _ _ _ _ _ htrace _ ht => subst ht; exact ⟨_, htrace, by simp⟩
  | deinitBorrowed _ _ _ ht => subst ht; exact ⟨[], (List.append_nil _).symm, Nat.zero_le _⟩
  | borrow _ _ _ _ hb =>
    obtain ⟨new, htrace, hlength⟩ := hb.requests_length_le
    exact ⟨new, htrace, hlength.trans (by decide)⟩
  | own _ _ _ _ ho =>
    obtain ⟨new, htrace, hrequests⟩ := ho.owningRequests
    exact ⟨new, htrace, hrequests.length_le⟩

/-- Settles O51: by the ways a command can end. -/
theorem atMostThirtyRequests : Obligations.AtMostThirtyRequests := fun s i =>
  have ⟨new, htrace, hlength⟩ := (after_commandEnd i s).requests_length_le
  ⟨after i s, new, exec_eq_after i s, htrace, hlength⟩

/-! ## The registers after block reset (R270) -/

/-- The registers that the spec gives a reset value hold it (10_state.md R42). -/
def RegistersReset (t : State) : Prop :=
  t.session = .uninit ∧ t.owns = false ∧ t.devId = 0 ∧ t.busId = 0 ∧ t.seq = 0 ∧ statusWord t = 0 ∧ t.terr = 0 ∧
    t.panelWinKnown = false

/-- `STATUS` reads after block reset as it does after power-up. -/
theorem statusWord_blockReset (s : State) : statusWord (blockReset s) = 0 :=
  (statusWord_congr (t := State.reset) (blockReset_kind s) (blockReset_busy s) (blockReset_result s)
    (blockReset_errByte s) (blockReset_errStep s) (blockReset_errSrc s) (blockReset_session s)
    (blockReset_owns s)).trans statusWord_reset

theorem registersReset_blockReset (s : State) : RegistersReset (blockReset s) :=
  ⟨blockReset_session s, blockReset_owns s, blockReset_devId s, blockReset_busId s, blockReset_seq s,
    statusWord_blockReset s, blockReset_terr s, blockReset_panelWinKnown s⟩

/-- An abandoned command leaves the registers of block reset: only answers and observation are cut back (R271). -/
theorem registersReset_abandon (k : Nat) (s u : State) : RegistersReset (abandon k s u) := by
  simpa only [RegistersReset, statusWord, abandon] using registersReset_blockReset u

/-! ## Block reset between commands (R270, R271) -/

/-- The move of block reset, of a busy controller too. -/
theorem step_blockReset {s : State} {ms : List HostMove} (h : s.host = .blockReset :: ms) :
    step s = .next (blockReset { s with host := ms }) := by
  simp only [step, h]

/-- Settles O58: the registers, the framebuffer's form, and what block reset has no hand in. -/
theorem blockResetMakesNoRequest : Obligations.BlockResetMakesNoRequest := by
  intro s ms hhost
  obtain ⟨hsession, howns, hdev, hbus, hseq, hstatus, hterr, hpanel⟩ := registersReset_blockReset { s with host := ms }
  obtain ⟨hrom, hinit, hparams⟩ := blockReset_constants { s with host := ms }
  have hwf : (blockReset { s with host := ms }).fb.wf = true := (blockReset_fb _).symm ▸ wf_freeFramebuffer s.draws
  exact ⟨_, step_blockReset hhost, hsession, howns, hdev, hbus, hseq, hstatus, hterr, hpanel, hwf,
    blockReset_trace _, blockReset_diag _, blockReset_host _, blockReset_replies _, hrom, hinit, hparams⟩

/-! ## Block reset in the middle of a command (R271; log 13) -/

/-- A command is run from the bytes and the moves it is given, not from the moves that stand in the state. -/
theorem runCommand_replaceHost (bs : List Byte) (ms hs : List HostMove) (s : State) :
    runCommand bs ms { s with host := hs } = runCommand bs ms s := rfl

theorem step_sendThenReset {s : State} {bs : List Byte} {k : Nat} {ms : List HostMove}
    (h : s.host = .sendThenReset bs k :: ms) : step s = runThenReset bs k ms s := by
  simp only [step, h]

/-- A command that would run is abandoned. -/
theorem runThenReset_of_next {s u : State} {bs : List Byte} {ms : List HostMove} (k : Nat)
    (h : runCommand bs ms s = .next u) : runThenReset bs k ms s = .next (abandon k s u) := by
  simp only [runThenReset, h]

/-- Where a controller that is not busy waits for the command's next byte, there is nothing to abandon. -/
theorem runThenReset_of_incomplete {s : State} {bs : List Byte} (k : Nat) (ms : List HostMove) (hb : s.busy = false)
    (hf : fetchCommand bs = none) : runThenReset bs k ms s = .next (blockReset { s with host := ms }) := by
  simp only [runThenReset, runCommand_of_incomplete ms hb hf]

/-- A command that answers a next state only appends to the trace (00_scope.md R17). -/
theorem runCommand_trace_grows {s u : State} {bs : List Byte} {ms : List HostMove}
    (h : runCommand bs ms s = .next u) : ∃ new, u.trace = s.trace ++ new := by
  obtain ⟨-, c, -, ⟨i, rfl⟩ | rfl⟩ := runCommand_cases h
  · exact after_trace_grows i (accept c ms s)
  · exact ⟨[], (List.append_nil _).symm⟩

/-- Of the requests of an abandoned command, the first `k` were made. -/
theorem abandon_trace {s u : State} {new : List Transaction} (k : Nat) (h : u.trace = s.trace ++ new) :
    (abandon k s u).trace = s.trace ++ new.take k := by
  change u.trace.take (s.trace.length + k) = s.trace ++ new.take k
  rw [h, List.take_length_add_append]

theorem abandon_host (k : Nat) (s u : State) : (abandon k s u).host = u.host := by
  simp only [abandon, blockReset_host]

/-- Settles O59: the command, run from the same bytes, is abandoned; one whose bytes have not all arrived leaves
block reset. -/
theorem resetAbandonsABusyCommand : Obligations.ResetAbandonsABusyCommand := by
  intro s bytes k ms hhost
  refine ⟨fun u hne hstep => ?_, fun hidle hfetch => ?_⟩
  · have hrun : runCommand bytes ms s = .next u :=
      (runCommand_replaceHost ..).symm.trans ((step_send hne rfl).symm.trans hstep)
    obtain ⟨new, htrace⟩ := runCommand_trace_grows hrun
    obtain ⟨hsession, howns, hdev, hbus, hseq, hstatus, hterr, hpanel⟩ := registersReset_abandon k s u
    exact ⟨_, new, (step_sendThenReset hhost).trans (runThenReset_of_next k hrun), htrace, abandon_trace k htrace,
      hsession, howns, hdev, hbus, hseq, hstatus, hterr, hpanel, abandon_host k s u⟩
  · calc step s
      _ = runThenReset bytes k ms s := step_sendThenReset hhost
      _ = .next (blockReset { s with host := ms }) := runThenReset_of_incomplete k ms hidle hfetch
      _ = step { s with host := .blockReset :: ms } :=
        (step_blockReset (s := { s with host := .blockReset :: ms }) rfl).symm

end Sys2Proof.Machine
end
